-- ==== Sys2Proof/Word.lean ====
section
/-! DEFINITION. The widths of the block's data (spec/00_scope.md R5, R8): bytes, 32-bit words, register indices. -/

namespace Sys2Proof

/-- `u8` (R8). -/
abbrev Byte := BitVec 8

/-- `u32`: registers, addresses, the PC and memory words (R8). `+` and `-` on it are modulo 2^32 (D1; log 9). -/
abbrev Word := BitVec 32

/-- `u5`, the index of one of the `NREG = 32` registers of a snapshot (R5, R8, R30). -/
abbrev RegIdx := Fin 32

end Sys2Proof
end

