-- ==== Sys2Proof/Config.lean ====
section
/-! DEFINITION. The fixed parameters of the block (spec/00_scope.md R5), each one named constant, because the spec
calls its numeric literals unaudited (93_implementation_defined.md I10; log 26: UNVERIFIED, unsafe). No value that an
instruction produces is left open by this spec, so no constant here is opaque. -/

namespace Sys2Proof

/-- The two memory regions' names (20_memory.md R61). -/
inductive RegionName where
  | data
  | instruction
  deriving DecidableEq, Repr

/-- A region: "a contiguous, named slice of the flat address space backed by its own byte buffer" (R11, R61).
`start` is its first byte address, `size` its byte count. -/
structure Region where
  name  : RegionName
  start : Nat
  size  : Nat
  deriving DecidableEq, Repr

/-- `R.start <= a < R.start + R.size` (R62). -/
def Region.contains (r : Region) (a : Nat) : Bool := r.start ≤ a && a < r.start + r.size

namespace Config

/-- `WORD_BYTES`: bytes per access and the PC stride (R5). -/
def wordBytes : Nat := 4

/-- Region D (R61). -/
def dataRegion : Region := ⟨.data, 0, 256⟩

/-- Region I (R61). -/
def instrRegion : Region := ⟨.instruction, 256, 128⟩

/-- The region list that the lookup scans (R61, R62). -/
def regions : List Region := [dataRegion, instrRegion]

/-- Some region holds byte address `a` (R61). -/
def mapped (a : Nat) : Bool := regions.any (·.contains a)

/-- `START_PC` (R5; the spec's decision D5; log 12). -/
def startPc : Word := 256#32

/-- The greatest `TERMINAL_PC` that the launch accepts, 2^32 - 4 (70_reset_and_hazards.md R232; D6; log 12). -/
def maxTerminalPc : Nat := 2 ^ 32 - 4

/-- `WIN_LO` (R5). -/
def windowLo : Nat := 8

/-- `WIN_HI` (R5). -/
def windowHi : Nat := 23

/-- The primary opcode of every R-format word (30_encoding.md R91). -/
def opcodeR : BitVec 6 := 0#6

/-- LOAD_WORD's primary opcode (R99). -/
def opcodeLoadWord : BitVec 6 := 35#6

/-- STORE_WORD's primary opcode (R99). -/
def opcodeStoreWord : BitVec 6 := 43#6

/-- ADD's function code (R96). -/
def functAdd : BitVec 6 := 32#6

/-- SUB's function code (R96). -/
def functSub : BitVec 6 := 34#6

/-- OR's function code (R96). -/
def functOr : BitVec 6 := 37#6

/-- What a byte that nothing has written reads as: memory is zero-initialised (10_state.md R44, 20_memory.md R61). -/
def unlistedByte : Byte := 0#8

end Config

end Sys2Proof
end

