-- ==== Sys2Proof/Syntax.lean ====
section
/-! DEFINITION. The instructions (spec/30_encoding.md R102: one constructor for each row of spec/opcode_table.json) and
what the decoder makes of a word. -/

namespace Sys2Proof

/-- The five recognised operations with their operands, in the order of the spec's listing syntax (R104). `imm` is the
record's immediate: 32 bits, already sign-extended (00_scope.md R10, 30_encoding.md R94). Bits 10:6 of an R-format word
take no part in decoding (R98), so no constructor holds them. -/
inductive Instr where
  /-- `add $rd, $rs, $rt` (R141). -/
  | add (rd rs rt : RegIdx)
  /-- `sub $rd, $rs, $rt` (R142). -/
  | sub (rd rs rt : RegIdx)
  /-- `or $rd, $rs, $rt` (R143). -/
  | or (rd rs rt : RegIdx)
  /-- `lw $rt, imm($rs)` (R162). -/
  | loadWord (rt rs : RegIdx) (imm : Word)
  /-- `sw $rt, imm($rs)` (R161). -/
  | storeWord (rt rs : RegIdx) (imm : Word)
  deriving DecidableEq, Repr

/-- Why a word is UNDEFINED (R97, R99). -/
inductive UndefinedReason where
  /-- Opcode 0 with a funct other than 32, 34, 37 (R97). -/
  | unknownFunct
  /-- An opcode other than 0, 35, 43 (R99). -/
  | unknownOpcode
  deriving DecidableEq, Repr

/-- The decoder's record (R95) without its two diagnostic outputs, which `Machine.diagnostics` computes from it. An
UNDEFINED record has no operand fields (R97; log 8). -/
inductive Decoded where
  | instr (i : Instr)
  | undefined (why : UndefinedReason)
  deriving DecidableEq, Repr

end Sys2Proof
end

