-- ==== Sys2Proof/WellFormed.lean ====
section
/-! DEFINITION. Which instructions have an encoding: an immediate must be the sign extension of a 16-bit field
(spec/30_encoding.md R94). Register operands need no check, `RegIdx` holds exactly the 32 indices, and all 32 are
executable (10_state.md R32). -/

namespace Sys2Proof

/-- "Values range from -32768 (`0xFFFF8000`) to 32767 (`0x00007FFF`)" (R94). -/
def immInRange (imm : Word) : Bool := -32768 ≤ imm.toInt && imm.toInt ≤ 32767

/-- An instruction that some word encodes. -/
def Instr.wellFormed : Instr → Bool
  | .add _ _ _ => true
  | .sub _ _ _ => true
  | .or _ _ _ => true
  | .loadWord _ _ imm => immInRange imm
  | .storeWord _ _ imm => immInRange imm

end Sys2Proof
end

