-- ==== Sys2Proof/Decode.lean ====
section
/-! DEFINITION. The decoder (spec/30_encoding.md R91 to R103), total on every word and every list of bytes; the encoder
after it; and the byte order of words (20_memory.md R66), which both memory and the byte decoder use. -/

namespace Sys2Proof

/-! ## Byte order -/

/-- A word from its four bytes, lowest address first: little-endian (R63, R66). -/
def leWord (b0 b1 b2 b3 : Byte) : Word := b3 ++ b2 ++ b1 ++ b0

/-- Byte `k` of a word in little-endian order: byte 0 is bits 7:0 (R64, R66). -/
def byteOf (w : Word) (k : Nat) : Byte := w.extractLsb' (8 * k) 8

/-- A word as the hardware stores it, lowest address first (R66). -/
def wordBytes (w : Word) : List Byte := [byteOf w 0, byteOf w 1, byteOf w 2, byteOf w 3]

/-! ## Fields (R91, R92, R93) -/

/-- `w[31:26]`. -/
def opcodeOf (w : Word) : BitVec 6 := w.extractLsb' 26 6

/-- `w[25:21]`. -/
def rsOf (w : Word) : RegIdx := (w.extractLsb' 21 5).toFin

/-- `w[20:16]`. -/
def rtOf (w : Word) : RegIdx := (w.extractLsb' 16 5).toFin

/-- `w[15:11]`. -/
def rdOf (w : Word) : RegIdx := (w.extractLsb' 11 5).toFin

/-- `w[5:0]`. -/
def functOf (w : Word) : BitVec 6 := w.extractLsb' 0 6

/-- `sext_32(w[15:0])` (R94). -/
def immOf (w : Word) : Word := (w.extractLsb' 0 16).signExtend 32

/-! ## The decoder -/

/-- R-format: funct selects the operation; bits 10:6 are not looked at (R96, R97, R98). -/
def decodeR (w : Word) : Decoded :=
  if functOf w = Config.functAdd then .instr (.add (rdOf w) (rsOf w) (rtOf w))
  else if functOf w = Config.functSub then .instr (.sub (rdOf w) (rsOf w) (rtOf w))
  else if functOf w = Config.functOr then .instr (.or (rdOf w) (rsOf w) (rtOf w))
  else .undefined .unknownFunct

/-- I-format: the opcode selects the operation (R99). -/
def decodeI (w : Word) : Decoded :=
  if opcodeOf w = Config.opcodeLoadWord then .instr (.loadWord (rtOf w) (rsOf w) (immOf w))
  else if opcodeOf w = Config.opcodeStoreWord then .instr (.storeWord (rtOf w) (rsOf w) (immOf w))
  else .undefined .unknownOpcode

/-- `Decode(w)` (R101), the two diagnostic outputs apart (`Machine.diagnostics`). -/
def decode (w : Word) : Decoded :=
  if opcodeOf w = Config.opcodeR then decodeR w else decodeI w

/-- What the byte decoder makes of a list of bytes: a record with the bytes after it, or too few bytes for a word
(every instruction is one 32-bit word, R90). -/
inductive ByteDecoding where
  | word (d : Decoded) (rest : List Byte)
  | truncated
  deriving DecidableEq, Repr

/-- The decoder on any bytes: the first four are one little-endian word (R66, R90). -/
def decodeBytes : List Byte → ByteDecoding
  | b0 :: b1 :: b2 :: b3 :: rest => .word (decode (leWord b0 b1 b2 b3)) rest
  | _ => .truncated

/-- The instruction the decoder reads from the word whose low `nbits` bits are those of `w` and whose other bits are 0,
laid out in bytes as the hardware stores it; none for an UNDEFINED word. -/
def decodeTableWord (nbits w : Nat) : Option Instr :=
  match decodeBytes (wordBytes (BitVec.ofNat 32 (w % 2 ^ nbits))) with
  | .word (.instr i) _ => some i
  | _ => none

/-! ## The encoder -/

/-- A register index as its 5-bit field. -/
def regBits (r : RegIdx) : BitVec 5 := BitVec.ofFin r

/-- An R-format word (R92), bits 10:6 zero. -/
def encodeR (rs rt rd : RegIdx) (funct : BitVec 6) : Word :=
  Config.opcodeR ++ regBits rs ++ regBits rt ++ regBits rd ++ 0#5 ++ funct

/-- An I-format word (R93): the low 16 bits of the immediate. -/
def encodeI (opcode : BitVec 6) (rs rt : RegIdx) (imm : Word) : Word :=
  opcode ++ regBits rs ++ regBits rt ++ imm.extractLsb' 0 16

/-- The word of a well-formed instruction (R92, R93, R96, R99). -/
def encode : Instr → Word
  | .add rd rs rt => encodeR rs rt rd Config.functAdd
  | .sub rd rs rt => encodeR rs rt rd Config.functSub
  | .or rd rs rt => encodeR rs rt rd Config.functOr
  | .loadWord rt rs imm => encodeI Config.opcodeLoadWord rs rt imm
  | .storeWord rt rs imm => encodeI Config.opcodeStoreWord rs rt imm

/-! ## The opcode map as masks -/

/-- One row of the opcode map (R102): a word stands for `mnemonic` when its `mask` bits are those of `pattern`. -/
structure OpcodeRow where
  mnemonic : String
  mask     : Word
  pattern  : Word
  deriving DecidableEq, Repr

/-- The word is one of the row's. -/
def OpcodeRow.matchesWord (row : OpcodeRow) (w : Word) : Bool := w &&& row.mask == row.pattern

/-- The row of an instruction's operation (R102, spec/opcode_table.json). -/
def Instr.row : Instr → OpcodeRow
  | .add _ _ _ => ⟨"ADD", 0xFC00003F#32, 0x00000020#32⟩
  | .sub _ _ _ => ⟨"SUB", 0xFC00003F#32, 0x00000022#32⟩
  | .or _ _ _ => ⟨"OR", 0xFC00003F#32, 0x00000025#32⟩
  | .loadWord _ _ _ => ⟨"LOAD_WORD", 0xFC000000#32, 0x8C000000#32⟩
  | .storeWord _ _ _ => ⟨"STORE_WORD", 0xFC000000#32, 0xAC000000#32⟩

end Sys2Proof
end

