-- ==== Sys2Proof/Machine/State.lean ====
section
/-! DEFINITION. The state the spec gives the block (spec/10_state.md), as plain data, its value at reset (R44), and the
reasons a step or a launch can stop. -/

namespace Sys2Proof.Machine

/-- One snapshot's registers: 32 words (R30, R33). No register is hardwired (R31; D9; log 15). -/
abbrev RegFile := Vector Word 32

/-- Every register zero (R44). -/
def RegFile.zero : RegFile := Vector.replicate 32 0#32

/-- The bytes of regions D and I (20_memory.md R61) that differ from what an unlisted byte reads as, by byte address.
The two regions' buffers lie in one list, each byte under its address in the flat space (log 21). -/
abbrev Memory := List Host.Cell

/-- The canonical form: addresses strictly rising, every address in a region, and no byte listed that reads the same
unlisted; so equal memories are equal lists. -/
abbrev Memory.wf (m : Memory) : Prop :=
  m.Pairwise (fun c d => c.1 < d.1) ∧ ∀ c ∈ m, c.2 ≠ Config.unlistedByte ∧ Config.mapped c.1 = true

/-- The instruction record (R39): the distinct value EMPTY between instructions, or what DECODE wrote (D20; log 19). -/
inductive InstrRecord where
  | empty
  | holding (d : Decoded)
  deriving DecidableEq, Repr

/-- The two diagnostic outputs of one instruction cycle (R40; D17; log 16). -/
structure Diagnostics where
  undef  : Bool
  regwin : Bool
  deriving DecidableEq, Repr

/-- The run status (R43); before the host starts the run the block is idle (R44). -/
inductive RunStatus where
  | idle
  | running
  | halted
  | faulted (addr : Word)
  deriving DecidableEq, Repr

/-- Everything the spec gives the block. -/
structure State where
  /-- The current snapshot (R30). -/
  cur : RegFile
  /-- The next snapshot (R33, R34). -/
  next : RegFile
  /-- The program counter (R36). -/
  pc : Word
  /-- TERMINAL_PC (R38). -/
  terminalPc : Word
  /-- The instruction record (R39). -/
  ir : InstrRecord
  /-- Memory (R61). -/
  mem : Memory
  /-- The run status (R43). -/
  status : RunStatus
  /-- The diagnostic outputs as the latest instruction cycle drove them; none before the first (R40, R44; log 1). -/
  diag : Option Diagnostics
  deriving DecidableEq, Repr

/-- The block right after reset (R44, R230): all zero, the record EMPTY, idle, no diagnostic event. -/
def State.reset : State where
  cur := RegFile.zero
  next := RegFile.zero
  pc := 0#32
  terminalPc := 0#32
  ir := .empty
  mem := []
  status := .idle
  diag := none

/-- The faults of a step. -/
inductive Fault where
  /-- `fault(RegionOverrun, addr)` (00_scope.md R9, 60_exceptions.md R202; D8; log 14): LOAD_WORD and STORE_WORD raise it
  for an access that starts in a region and runs past its end, and so does a fetch whose pc no run reaches (log 25).
  `stopped` is the block as the fault leaves it. Safe: it stands for accesses whose bytes the source gives no value. -/
  | regionOverrun (addr : Word) (stopped : State)
  deriving DecidableEq, Repr

/-- The refusals. No step of this model answers one of them; the launch does. -/
inductive Refusal where
  /-- Raised by `exec` for an instruction that has no meaning yet; there is none. Safe. -/
  | notModelled (mnemonic : String)
  /-- Raised by `launch`: the program source is missing or malformed (70_reset_and_hazards.md R232; D19). Safe. -/
  | programUnreadable
  /-- Raised by `launch`: TERMINAL_PC is not START_PC + 4*N or exceeds 2^32 - 4 (R232; D6). Safe. -/
  | terminalPcMismatch
  /-- Raised by `launch`: the block is not idle, so it has been launched before (R7, R230; log 6). Safe. -/
  | alreadyLaunched
  deriving DecidableEq, Repr

/-- What a step, an instruction or a launch answers. -/
abbrev Result := Host.Outcome State Fault Refusal

end Sys2Proof.Machine
end

