-- ==== Sys2Proof/Machine/Ops.lean ====
section
/-! DEFINITION. The named operations over registers and memory, the commit, the end of a cycle, and raising the one
fault. -/

namespace Sys2Proof.Machine

/-! ## Registers (spec/10_state.md R30, R31, R33) -/

/-- `cur[r]` or `next[r]`: every index is an ordinary register, 0 included (R31; D9; log 15). -/
def RegFile.read (f : RegFile) (r : RegIdx) : Word := f[r]

/-- `cur[r] <- v` or `next[r] <- v` (R31). -/
def RegFile.write (f : RegFile) (r : RegIdx) (v : Word) : RegFile := f.set r v

/-- EXECUTE's write of a result into the next snapshot (40_execution_cycle.md R124). -/
def State.setNext (s : State) (r : RegIdx) (v : Word) : State := { s with next := s.next.write r v }

/-- COMMIT of one register: `cur[r] <- next[r]` (R125). -/
def State.commit (s : State) (r : RegIdx) : State := { s with cur := s.cur.write r (s.next.read r) }

/-- A register result: EXECUTE writes it to `next[r]`, COMMIT copies it to `cur[r]` (R125, 41_arith_logic.md R141 to
R143). -/
def State.writeResult (s : State) (r : RegIdx) (v : Word) : State := (s.setNext r v).commit r

/-- The end of a cycle: `pc <- pc + 4` (R126; modulo 2^32, D21; log 9) and `ir <- EMPTY` (R127). -/
def State.finishCycle (s : State) : State :=
  { s with pc := s.pc + BitVec.ofNat 32 Config.wordBytes, ir := .empty }

/-! ## Memory bytes -/

/-- The byte at address `a`. -/
def Memory.readByte : Memory → Nat → Byte
  | [], _ => Config.unlistedByte
  | (b, v) :: m, a => if b = a then v else Memory.readByte m a

/-- Store a byte in front of a memory whose addresses are all greater; a byte that reads the same unlisted is not
listed. -/
def Memory.push (m : Memory) (a : Nat) (v : Byte) : Memory :=
  if v = Config.unlistedByte then m else (a, v) :: m

/-- Store a byte, keeping the canonical form. -/
def Memory.writeByte : Memory → Nat → Byte → Memory
  | [], a, v => Memory.push [] a v
  | (b, w) :: m, a, v =>
    if a < b then Memory.push ((b, w) :: m) a v
    else if a = b then Memory.push m a v
    else (b, w) :: Memory.writeByte m a v

/-- The little-endian word of the four bytes from address `a` on (20_memory.md R63, R66). -/
def Memory.readWord (m : Memory) (a : Nat) : Word :=
  leWord (m.readByte a) (m.readByte (a + 1)) (m.readByte (a + 2)) (m.readByte (a + 3))

/-- Store a word's four bytes from address `a` on, lowest byte first (R64, R66). -/
def Memory.writeWord (m : Memory) (a : Nat) (v : Word) : Memory :=
  (((m.writeByte a (byteOf v 0)).writeByte (a + 1) (byteOf v 1)).writeByte (a + 2) (byteOf v 2)).writeByte (a + 3)
    (byteOf v 3)

/-! ## The access primitives (R62, R63, R64) -/

/-- `owner(a)`: the region that holds the first byte of the access, by a scan of the region list (R62). -/
def owner (a : Word) : Option Region := Config.regions.find? (·.contains a.toNat)

/-- `raise RegionOverrun(addr)` (00_scope.md R8), as the answer of an access. -/
structure RegionOverrun where
  addr : Word
  deriving DecidableEq, Repr

/-- `o + 4 > R.size`, where `o` is the offset of `a` in the region's buffer (R63, R64; D8; log 14). -/
def overrunsRegion (r : Region) (a : Word) : Bool := a.toNat - r.start + Config.wordBytes > r.size

/-- `MemRead(a, 4)` (R63). -/
def memRead (m : Memory) (a : Word) : Except RegionOverrun Word :=
  match owner a with
  | none => .ok 0#32
  | some r => if overrunsRegion r a then .error ⟨a⟩ else .ok (m.readWord a.toNat)

/-- `MemWrite(a, 4, v)` (R64). -/
def memWrite (m : Memory) (a v : Word) : Except RegionOverrun Memory :=
  match owner a with
  | none => .ok m
  | some r => if overrunsRegion r a then .error ⟨a⟩ else .ok (m.writeWord a.toNat v)

/-! ## The fault (60_exceptions.md R202, R205: there is no trap entry, and no return) -/

/-- The cycle stops before any write of its instruction: the registers, memory and `pc` stay, `ir` keeps the faulting
record, the status becomes `faulted(addr)` (R131, R202; D8; log 14; log 3 on the state in the fault). -/
def raiseRegionOverrun (addr : Word) (s : State) : Result :=
  .fault (.regionOverrun addr { s with status := .faulted addr })

/-- Go on with what an access gave, or raise its overrun. -/
def withAccess {α : Type} (s : State) (access : Except RegionOverrun α) (goOn : α → Result) : Result :=
  match access with
  | .ok v => goOn v
  | .error e => raiseRegionOverrun e.addr s

end Sys2Proof.Machine
end

