-- ==== Sys2Proof/Machine/Arithmetic.lean ====
section
/-! DEFINITION. ADD, SUB and OR (spec/41_arith_logic.md): EXECUTE and COMMIT. `pc` advances in the cycle (log 4). -/

namespace Sys2Proof.Machine

/-- ADD (R141): `next[rd] <- cur[rd] + cur[rs] + cur[rt]`; commit `rd`. The destination's old value is in the sum (D3;
log 10); the sum is modulo 2^32 (R140; D1; log 9). -/
def execAdd (rd rs rt : RegIdx) (s : State) : Result :=
  .next (s.writeResult rd (s.cur.read rd + s.cur.read rs + s.cur.read rt))

/-- SUB (R142): `next[rd] <- cur[rd] - (cur[rs] + cur[rt])`; commit `rd`. -/
def execSub (rd rs rt : RegIdx) (s : State) : Result :=
  .next (s.writeResult rd (s.cur.read rd - (s.cur.read rs + s.cur.read rt)))

/-- OR (R143): `next[rd] <- cur[rs] | cur[rt]`; commit `rd`. -/
def execOr (rd rs rt : RegIdx) (s : State) : Result :=
  .next (s.writeResult rd (s.cur.read rs ||| s.cur.read rt))

end Sys2Proof.Machine
end

