-- ==== Sys2Proof/Machine/Operands.lean ====
section
/-! DEFINITION. The operand forms: a register of the current snapshot, and base plus signed displacement
(spec/42_load_store.md R160). -/

namespace Sys2Proof.Machine

/-- `base + imm` modulo 2^32 (R160; D2; log 9): neither scaled nor checked for alignment or range. -/
def effectiveAddress (base imm : Word) : Word := base + imm

/-- STORE_WORD's address: the base comes from the current snapshot (R160, R161). -/
def storeAddress (s : State) (rs : RegIdx) (imm : Word) : Word := effectiveAddress (s.cur.read rs) imm

/-- LOAD_WORD's address: the base comes from the NEXT snapshot (R160, R162; D4; log 11). -/
def loadAddress (s : State) (rs : RegIdx) (imm : Word) : Word := effectiveAddress (s.next.read rs) imm

/-- The address of the instruction's own access; ADD, SUB and OR make none (R204). -/
def accessAddress (s : State) : Instr → Option Word
  | .add _ _ _ => none
  | .sub _ _ _ => none
  | .or _ _ _ => none
  | .loadWord _ rs imm => some (loadAddress s rs imm)
  | .storeWord _ rs imm => some (storeAddress s rs imm)

end Sys2Proof.Machine
end

