-- ==== Sys2Proof/Machine/LoadStore.lean ====
section
/-! DEFINITION. LOAD_WORD and STORE_WORD (spec/42_load_store.md): EXECUTE and COMMIT. -/

namespace Sys2Proof.Machine

/-- LOAD_WORD (R162): `next[rt] <- MemRead(next[rs] + imm)`; commit `rs`, not `rt`, reading `next[rs]` after that write
(D4; log 11). -/
def execLoadWord (rt rs : RegIdx) (imm : Word) (s : State) : Result :=
  withAccess s (memRead s.mem (loadAddress s rs imm)) fun v => .next ((s.setNext rt v).commit rs)

/-- STORE_WORD (R161): `MemWrite(cur[rs] + imm, cur[rt])`; no commit. -/
def execStoreWord (rt rs : RegIdx) (imm : Word) (s : State) : Result :=
  withAccess s (memWrite s.mem (storeAddress s rs imm) (s.cur.read rt)) fun m => .next { s with mem := m }

end Sys2Proof.Machine
end

