-- ==== Sys2Proof/Machine/Dispatch.lean ====
section
/-! DEFINITION. EXECUTE and COMMIT of a recognised instruction (spec/40_execution_cycle.md R124, R125): one arm each. -/

namespace Sys2Proof.Machine

def exec (i : Instr) (s : State) : Host.Outcome State Fault Refusal :=
  match i with
  | .add rd rs rt => Sys2Proof.Machine.execAdd rd rs rt s
  | .sub rd rs rt => Sys2Proof.Machine.execSub rd rs rt s
  | .or rd rs rt => Sys2Proof.Machine.execOr rd rs rt s
  | .loadWord rt rs imm => Sys2Proof.Machine.execLoadWord rt rs imm s
  | .storeWord rt rs imm => Sys2Proof.Machine.execStoreWord rt rs imm s

end Sys2Proof.Machine
end

