-- ==== Sys2Proof/Machine/Flags.lean ====
section
/-! DEFINITION. The block has no flags (spec/10_state.md R41). What it computes beside a result are the two diagnostic
outputs of a cycle (R40), which nothing reads. -/

namespace Sys2Proof.Machine

/-- "well-formed for display": the index lies in [8,23] (10_state.md R32, 30_encoding.md R100). -/
def inWindow (r : RegIdx) : Bool := Config.windowLo ≤ r.val && r.val ≤ Config.windowHi

/-- All three registers of an R-format record are in the window (R100). -/
def allInWindow (rd rs rt : RegIdx) : Bool := inWindow rs && inWindow rt && inWindow rd

/-- `diag_regwin` of a recognised instruction: only ADD, SUB and OR can raise it (R100; D10; log 16). -/
def regwin : Instr → Bool
  | .add rd rs rt => !allInWindow rd rs rt
  | .sub rd rs rt => !allInWindow rd rs rt
  | .or rd rs rt => !allInWindow rd rs rt
  | .loadWord _ _ _ => false
  | .storeWord _ _ _ => false

/-- The outputs `Decode` gives with a record (R95, R101). -/
def diagnostics : Decoded → Diagnostics
  | .instr i => ⟨false, regwin i⟩
  | .undefined _ => ⟨true, false⟩

end Sys2Proof.Machine
end

