-- ==== Sys2Proof/Machine/Undefined.lean ====
section
/-! DEFINITION. UNDEFINED, the tag of every word outside the five patterns (spec/40_execution_cycle.md R128). -/

namespace Sys2Proof.Machine

/-- `Execute`: nothing; `Commit`: nothing (R128). The diagnostic is the cycle's (`State.latch`). -/
def execUndefined (_why : UndefinedReason) (s : State) : Result := .next s

end Sys2Proof.Machine
end

