-- ==== Sys2Proof/Machine/Cycle.lean ====
section
/-! DEFINITION. The instruction cycle FETCH, DECODE, EXECUTE, COMMIT (spec/40_execution_cycle.md R120 to R127) and the
halt test. -/

namespace Sys2Proof.Machine

/-- FETCH: `w <- MemRead(pc)` (R122; D7; log 13). -/
def fetch (s : State) : Except RegionOverrun Word := memRead s.mem s.pc

/-- DECODE writes the record and the block emits its diagnostics (R120, R123; log 1). -/
def State.latch (s : State) (d : Decoded) : State :=
  { s with ir := .holding d, diag := some (diagnostics d) }

/-- EXECUTE and COMMIT dispatch on the record (R124, R125, R128). -/
def runDecoded (d : Decoded) (s : State) : Result :=
  match d with
  | .instr i => exec i s
  | .undefined why => execUndefined why s

/-- After COMMIT the PC advances and the record is reset (R126, R127); a cycle that faulted stops at once (R131). -/
def finish : Result → Result
  | .next s => .next s.finishCycle
  | .fault f => .fault f
  | .refused r => .refused r

/-- One whole instruction cycle (R120). -/
def cycle (s : State) : Result :=
  withAccess s (fetch s) fun w => finish (runDecoded (decode w) (s.latch (decode w)))

/-- The halt test's answer: the run ends normally and nothing else changes (R121). -/
def State.halt (s : State) : State := { s with status := .halted }

/-- A step of a running block: the halt test first, by equality (R121; D6; log 12), then a cycle (R120). -/
def runStep (s : State) : Result :=
  if s.pc = s.terminalPc then .next s.halt else cycle s

end Sys2Proof.Machine
end

