-- ==== Sys2Proof/Machine/Step.lean ====
section
/-! DEFINITION. One step of the machine: one whole instruction (spec/40_execution_cycle.md R120; D16; log 24), and
placing a word where the next step fetches. -/

namespace Sys2Proof.Machine

/-- `Step(s)` runs "only while status = running" (R120). `halted` and `faulted` are final, no later step changes them
(10_state.md R43), and an idle block does nothing until it is launched (R44; log 2). -/
def step (s : State) : Host.Outcome State Fault Refusal :=
  if s.status = .running then runStep s else .next s

/-- The word at address `a` can be stored and fetched back. -/
def holdsWord (a : Word) : Bool :=
  match owner a with
  | none => false
  | some r => !overrunsRegion r a

/-- Memory with word `v` at `a`; as it was where no word fits. -/
def Memory.placeWord (m : Memory) (a v : Word) : Memory :=
  match memWrite m a v with
  | .ok m' => m'
  | .error _ => m

/-- `s` with the word whose low `nbits` bits are those of `w` stored where the next step fetches. If the block is
running at an address that can hold it, only memory changes; otherwise this stands for loading a program of that one
word (70_reset_and_hazards.md R231, R233, R235; log 5). -/
def State.withFetchWord (s : State) (nbits w : Nat) : State :=
  if s.status = .running ∧ s.pc ≠ s.terminalPc ∧ holdsWord s.pc then
    { s with mem := s.mem.placeWord s.pc (BitVec.ofNat 32 (w % 2 ^ nbits)) }
  else
    { s with
      mem := s.mem.placeWord Config.startPc (BitVec.ofNat 32 (w % 2 ^ nbits))
      pc := Config.startPc
      terminalPc := Config.startPc + BitVec.ofNat 32 Config.wordBytes
      status := .running }

end Sys2Proof.Machine
end

