-- ==== Sys2Proof/Machine/Launch.lean ====
section
/-! DEFINITION. What the host does before a run (spec/70_reset_and_hazards.md R231 to R236). It is no step of the core:
the host acts only before the first fetch (00_scope.md R7). -/

namespace Sys2Proof.Machine

/-- The launch inputs (00_scope.md R6). -/
structure LaunchInputs where
  /-- `PROGRAM`; none when the program source is missing or malformed (R232; I2). -/
  program : Option (List Word)
  /-- `TERMINAL_PC` (R235). -/
  terminalPc : Word
  /-- `CUR_AT_LAUNCH` (R234). -/
  cur : RegFile
  /-- `DATA_AT_LAUNCH`: the bytes of region D, lowest address first (R234). -/
  data : Vector Byte 256
  /-- `NEXT_AT_LAUNCH`, all zero by default (R236; D11; log 17). -/
  next : RegFile := RegFile.zero
  deriving DecidableEq, Repr

/-- The loader: `MemWrite(a + 4*i, p_i)` in order (R233; D18; log 13). -/
def loadProgram (m : Memory) (a : Word) : List Word → Except RegionOverrun Memory
  | [] => .ok m
  | p :: ps =>
    match memWrite m a p with
    | .ok m' => loadProgram m' (a + BitVec.ofNat 32 Config.wordBytes) ps
    | .error e => .error e

/-- Set consecutive bytes from address `a` on (R234). -/
def presetBytes (m : Memory) (a : Nat) : List Byte → Memory
  | [] => m
  | b :: bs => presetBytes (m.writeByte a b) (a + 1) bs

/-- `TERMINAL_PC = START_PC + 4*N` and `TERMINAL_PC <= 2^32 - 4`, on the numbers, without wrap-around (R232; D6;
log 12). -/
def terminalPcAgrees (terminalPc : Word) (n : Nat) : Bool :=
  terminalPc.toNat == Config.startPc.toNat + Config.wordBytes * n && terminalPc.toNat ≤ Config.maxTerminalPc

/-- The state in which the run starts, from the memory with the program loaded (R231, steps 2 to 5). -/
def startState (l : LaunchInputs) (m : Memory) (s : State) : State :=
  { s with
    mem := presetBytes m Config.dataRegion.start l.data.toList
    cur := l.cur
    next := l.next
    terminalPc := l.terminalPc
    pc := Config.startPc
    status := .running }

/-- The launch: the premises (R232), then the five steps in order (R231). -/
def launch (l : LaunchInputs) (s : State) : Result :=
  if s.status ≠ .idle then .refused .alreadyLaunched
  else
    match l.program with
    | none => .refused .programUnreadable
    | some ps =>
      if terminalPcAgrees l.terminalPc ps.length then
        withAccess s (loadProgram s.mem Config.startPc ps) fun m => .next (startState l m s)
      else .refused .terminalPcMismatch

end Sys2Proof.Machine
end

