-- ==== Sys2Proof/Machine/Observe.lean ====
section
/-! DEFINITION. What the host reads after a run (spec/70_reset_and_hazards.md R237, 40_execution_cycle.md R130; D22;
log 23). -/

namespace Sys2Proof.Machine

/-- The observation: `cur`, `pc`, the run status and every byte of both regions, but not `next`. -/
structure Observation where
  cur    : RegFile
  pc     : Word
  status : RunStatus
  data   : List Byte
  instrs : List Byte
  deriving DecidableEq, Repr

/-- A region's bytes, lowest address first. -/
def regionBytes (m : Memory) (r : Region) : List Byte := (List.range r.size).map fun k => m.readByte (r.start + k)

/-- The host's read of the final state. -/
def observe (s : State) : Observation where
  cur := s.cur
  pc := s.pc
  status := s.status
  data := regionBytes s.mem Config.dataRegion
  instrs := regionBytes s.mem Config.instrRegion

end Sys2Proof.Machine
end

