-- ==== Sys2Proof/Safety.lean ====
section
/-! DEFINITION. The terms the claims use: a step that runs an instruction, the addresses that overrun, what an
instruction writes, frames, the invariant of a run, and a safe run. -/

namespace Sys2Proof.Machine

/-- The next step of `s` is an instruction cycle that fetches the word `w` (spec/40_execution_cycle.md R120, R121,
R122). -/
def Fetches (s : State) (w : Word) : Prop := s.status = .running ∧ s.pc ≠ s.terminalPc ∧ fetch s = .ok w

/-- The addresses at which a four-byte access starts in a region and runs past its end: 253 to 255 in region D, 381 to
383 in region I (60_exceptions.md R202; D8; log 14). -/
abbrev Overruns (a : Word) : Prop := 253 ≤ a.toNat ∧ a.toNat ≤ 255 ∨ 381 ≤ a.toNat ∧ a.toNat ≤ 383

/-- The register of `next` that the instruction's EXECUTE writes (R124, 10_state.md R33). -/
def nextTarget : Instr → Option RegIdx
  | .add rd _ _ => some rd
  | .sub rd _ _ => some rd
  | .or rd _ _ => some rd
  | .loadWord rt _ _ => some rt
  | .storeWord _ _ _ => none

/-- The register of `cur` that the instruction's COMMIT copies from `next` (R125). -/
def commitTarget : Instr → Option RegIdx
  | .add rd _ _ => some rd
  | .sub rd _ _ => some rd
  | .or rd _ _ => some rd
  | .loadWord _ rs _ => some rs
  | .storeWord _ _ _ => none

/-- Every register but `r` reads the same in `g` as in `f`. -/
def SameRegistersBut (r : RegIdx) (f g : RegFile) : Prop := ∀ q : RegIdx, q ≠ r → g.read q = f.read q

/-- Every byte of memory reads the same. -/
def SameMemory (s t : State) : Prop := ∀ a : Nat, t.mem.readByte a = s.mem.readByte a

/-- Everything that is neither a register of a snapshot nor memory is the same: `pc`, TERMINAL_PC, the record, the run
status and the diagnostic outputs. -/
def SameControl (s t : State) : Prop :=
  t.pc = s.pc ∧ t.terminalPc = s.terminalPc ∧ t.ir = s.ir ∧ t.status = s.status ∧ t.diag = s.diag

/-- What holds between instructions: memory is in its canonical form, `pc` and TERMINAL_PC are multiples of 4 (10_state.md
R36, 70_reset_and_hazards.md R232), the record is EMPTY (R39), and a running block has not passed its terminal PC
(40_execution_cycle.md R130). -/
structure State.Inv (s : State) : Prop where
  memWf           : s.mem.wf
  pcAligned       : s.pc.toNat % 4 = 0
  terminalAligned : s.terminalPc.toNat % 4 = 0
  recordEmpty     : s.ir = .empty
  notPast         : s.status = .running → s.pc.toNat ≤ s.terminalPc.toNat

/-- `n` steps of the machine, stopping at the first fault: the host's run of `Sys2Proof.core`. -/
def run (n : Nat) (s : State) : Result := Host.Core.run Sys2Proof.core n s

/-- The first `n` steps from `s` neither fault nor are refused: no access of theirs overran (R202). -/
def SafeFor (n : Nat) (s : State) : Prop := ∃ t, run n s = .next t

end Sys2Proof.Machine
end

