-- ==== Sys2Proof/Certificates/Slice0/Obligations.lean ====
section
/-! DEFINITION. The statements for the provers. Each docstring says which words of spec/ it formalises; where a clause
rests on a decision or a derivation that the spec marks as its own (D<n> of 92_eei_decisions.md), or on a choice of this
model (a log entry), the docstring names it. -/

open Sys2Proof Sys2Proof.Machine

/-! ## Encoding and decoding -/

/-- Decode and encode agree: the word of every well-formed instruction decodes to it, every operand at every value that
the encoding admits (30_encoding.md R92, R93, R94, R96, R99). The encoder is the model's own, from the field tables. -/
def Obligations.DecodeOfEncodeReturnsTheInstruction : Prop :=
  ∀ i : Instr, i.wellFormed = true → decode (encode i) = .instr i

/-- The other direction: what a word decodes to is well formed and encodes back to the word, bits 10:6 of an R-format
word cleared (the spec's derivation in R98: they do not take part in decoding). -/
def Obligations.EncodeOfDecodeReturnsTheWord : Prop :=
  ∀ (w : Word) (i : Instr), decode w = .instr i →
    i.wellFormed = true ∧ encode i = if w.extractLsb 31 26 = 0 then w &&& 0xFFFFF83F#32 else w

/-- R102: exactly five operations are recognised, each by its mask and match over the whole word, and every other word is
UNDEFINED. -/
def Obligations.OpcodeMapIsExact : Prop :=
  ∀ w : Word,
    ((∃ rd rs rt, decode w = .instr (.add rd rs rt)) ↔ w &&& 0xFC00003F#32 = 0x00000020#32) ∧
    ((∃ rd rs rt, decode w = .instr (.sub rd rs rt)) ↔ w &&& 0xFC00003F#32 = 0x00000022#32) ∧
    ((∃ rd rs rt, decode w = .instr (.or rd rs rt)) ↔ w &&& 0xFC00003F#32 = 0x00000025#32) ∧
    ((∃ rt rs imm, decode w = .instr (.loadWord rt rs imm)) ↔ w &&& 0xFC000000#32 = 0x8C000000#32) ∧
    ((∃ rt rs imm, decode w = .instr (.storeWord rt rs imm)) ↔ w &&& 0xFC000000#32 = 0xAC000000#32) ∧
    ((∃ why, decode w = .undefined why) ↔
      ¬ (w &&& 0xFC00003F#32 = 0x00000020#32 ∨ w &&& 0xFC00003F#32 = 0x00000022#32 ∨
        w &&& 0xFC00003F#32 = 0x00000025#32 ∨ w &&& 0xFC000000#32 = 0x8C000000#32 ∨
        w &&& 0xFC000000#32 = 0xAC000000#32))

/-- R96 and R97: with opcode 0, funct 32, 34 and 37 select ADD, SUB and OR with rs = w[25:21], rt = w[20:16] and rd =
w[15:11]; any other funct is UNDEFINED with `diag_undef`, its record without operand fields. -/
def Obligations.RFormatOperationSelect : Prop :=
  ∀ w : Word, w.extractLsb 31 26 = 0 →
    ∀ rs rt rd : RegIdx, rs.val = (w.extractLsb 25 21).toNat → rt.val = (w.extractLsb 20 16).toNat →
      rd.val = (w.extractLsb 15 11).toNat →
      (w.extractLsb 5 0 = 32 → decode w = .instr (.add rd rs rt)) ∧
      (w.extractLsb 5 0 = 34 → decode w = .instr (.sub rd rs rt)) ∧
      (w.extractLsb 5 0 = 37 → decode w = .instr (.or rd rs rt)) ∧
      (w.extractLsb 5 0 ≠ 32 → w.extractLsb 5 0 ≠ 34 → w.extractLsb 5 0 ≠ 37 →
        ∃ why, decode w = .undefined why ∧ (diagnostics (decode w)).undef = true)

/-- 30_encoding.md section 3 (R99): with a non-zero opcode, 35 is LOAD_WORD and 43 is STORE_WORD with rs = w[25:21] and rt
= w[20:16], any other is UNDEFINED with `diag_undef`; none sets `diag_regwin` (the spec's decision D10). -/
def Obligations.IFormatOperationSelect : Prop :=
  ∀ w : Word, w.extractLsb 31 26 ≠ 0 →
    ∀ rs rt : RegIdx, rs.val = (w.extractLsb 25 21).toNat → rt.val = (w.extractLsb 20 16).toNat →
      (w.extractLsb 31 26 = 35 → decode w = .instr (.loadWord rt rs ((w.extractLsb 15 0).signExtend 32))) ∧
      (w.extractLsb 31 26 = 43 → decode w = .instr (.storeWord rt rs ((w.extractLsb 15 0).signExtend 32))) ∧
      (w.extractLsb 31 26 ≠ 35 → w.extractLsb 31 26 ≠ 43 →
        ∃ why, decode w = .undefined why ∧ (diagnostics (decode w)).undef = true) ∧
      (diagnostics (decode w)).regwin = false

/-- R94: the immediate of a decoded LOAD_WORD or STORE_WORD is `sext_32` of w[15:0] as R8 defines it (the field itself if
bit 15 is 0, else the field plus 0xFFFF0000), unscaled, from -32768 to 32767; the source's two examples; it is added to
the base register (of either snapshot) as a byte displacement; and register operands are 5-bit indices. -/
def Obligations.ImmediateIsTheSignExtendedField : Prop :=
  (∀ (w imm : Word) (rt rs : RegIdx),
    decode w = .instr (.loadWord rt rs imm) ∨ decode w = .instr (.storeWord rt rs imm) →
      imm.toNat = (if (w.extractLsb 15 0).toNat < 2 ^ 15 then (w.extractLsb 15 0).toNat
        else (w.extractLsb 15 0).toNat + 0xFFFF0000) ∧
      -32768 ≤ imm.toInt ∧ imm.toInt ≤ 32767 ∧
      (w.extractLsb 15 0 = 0xFFFF → imm.toInt = -1) ∧ (w.extractLsb 15 0 = 0x0001 → imm.toInt = 1) ∧
      rt.val = (w.extractLsb 20 16).toNat ∧ rs.val = (w.extractLsb 25 21).toNat) ∧
  (∀ (w : Word) (rd rs rt : RegIdx),
    decode w = .instr (.add rd rs rt) ∨ decode w = .instr (.sub rd rs rt) ∨ decode w = .instr (.or rd rs rt) →
      rd.val = (w.extractLsb 15 11).toNat ∧ rs.val = (w.extractLsb 25 21).toNat ∧
      rt.val = (w.extractLsb 20 16).toNat) ∧
  (∀ (s : State) (rt rs : RegIdx) (imm : Word),
    (∃ f ∈ [s.cur, s.next], accessAddress s (.loadWord rt rs imm) = some (f.read rs + imm)) ∧
    (∃ f ∈ [s.cur, s.next], accessAddress s (.storeWord rt rs imm) = some (f.read rs + imm)))

/-- 30_encoding.md R98 (the spec's own derivation from R96): two R-format words that differ only in bits 10:6 decode to the
same record. -/
def Obligations.BitsTenToSixAreIgnored : Prop :=
  ∀ v w : Word, w.extractLsb 31 26 = 0 → v &&& 0xFFFFF83F#32 = w &&& 0xFFFFF83F#32 → decode v = decode w

/-- 30_encoding.md R100 (that only the R-format path checks is the spec's decision D10): `diag_regwin` is true exactly for a
recognised ADD, SUB or OR word with some index outside [8,23], and it does not change the operation; and R204, the spec's
derivation: no word gives both diagnostics. -/
def Obligations.RegisterWindowDiagnostic : Prop :=
  ∀ w : Word,
    ((diagnostics (decode w)).regwin = true ↔
      ∃ rd rs rt : RegIdx,
        (decode w = .instr (.add rd rs rt) ∨ decode w = .instr (.sub rd rs rt) ∨ decode w = .instr (.or rd rs rt)) ∧
        ∃ r ∈ [rs, rt, rd], r.val < 8 ∨ 23 < r.val) ∧
    ¬ ((diagnostics (decode w)).undef = true ∧ (diagnostics (decode w)).regwin = true)

/-- Words written out from the spec's field tables, one or more for each operation (30_encoding.md R92, R93, R96, R99;
95_test_vectors.md V-DEC). -/
def Obligations.WrittenOutWordsDecode : Prop :=
  decode 0b000000_10000_10000_10001_00000_100000#32 = .instr (.add 17 16 16) ∧
  decode 0b000000_01000_01001_01010_00000_100010#32 = .instr (.sub 10 8 9) ∧
  decode 0b000000_01010_01011_01100_00000_100101#32 = .instr (.or 12 10 11) ∧
  decode 0b100011_01000_01010_1111111111111111#32 = .instr (.loadWord 10 8 0xFFFFFFFF#32) ∧
  decode 0b101011_01000_01001_0000000000000100#32 = .instr (.storeWord 9 8 4#32) ∧
  decode 0b000000_00000_00000_00000_00000_111111#32 = .undefined .unknownFunct ∧
  decode 0b000010_00000_00000_00000_00000_000000#32 = .undefined .unknownOpcode

/-! ## Memory -/

/-- 20_memory.md sections 1 and 6 (R61, R62): `owner(a)` is region D for addresses 0 to 255, region I for 256 to 383, none
above; and (the spec's derivation in R62) the order of the scan does not matter. -/
def Obligations.RegionLookup : Prop :=
  ∀ a : Word,
    (a.toNat < 256 → owner a = some ⟨.data, 0, 256⟩) ∧
    (256 ≤ a.toNat → a.toNat < 384 → owner a = some ⟨.instruction, 256, 128⟩) ∧
    (384 ≤ a.toNat → owner a = none) ∧
    Config.regions.reverse.find? (·.contains a.toNat) = owner a

/-- 20_memory.md R63: `MemRead` of an unmapped address gives 0; of an address whose four bytes run past its region's end it
raises RegionOverrun (the spec's decision D8); otherwise it gives the four bytes in little-endian order, aligned or not
(R67). -/
def Obligations.MemReadAnswers : Prop :=
  ∀ (m : Memory) (a : Word),
    (384 ≤ a.toNat → memRead m a = .ok 0#32) ∧
    (Overruns a → memRead m a = .error ⟨a⟩) ∧
    (a.toNat < 384 → ¬ Overruns a →
      memRead m a = .ok ((m.readByte a.toNat).setWidth 32 ||| (m.readByte (a.toNat + 1)).setWidth 32 <<< 8 |||
        (m.readByte (a.toNat + 2)).setWidth 32 <<< 16 ||| (m.readByte (a.toNat + 3)).setWidth 32 <<< 24))

/-- 20_memory.md R64: `MemWrite` of an unmapped address changes nothing; an overrunning one raises RegionOverrun (the
spec's decision D8); otherwise bytes `a` to `a + 3` become v[7:0], v[15:8], v[23:16], v[31:24] and no other byte changes.
The memory is in its canonical form before and after (the model's representation, log 21). -/
def Obligations.MemWriteAnswers : Prop :=
  ∀ (m : Memory) (a v : Word), m.wf →
    (384 ≤ a.toNat → memWrite m a v = .ok m) ∧
    (Overruns a → memWrite m a v = .error ⟨a⟩) ∧
    (a.toNat < 384 → ¬ Overruns a →
      ∃ m', memWrite m a v = .ok m' ∧ m'.wf ∧
        m'.readByte a.toNat = v.extractLsb 7 0 ∧ m'.readByte (a.toNat + 1) = v.extractLsb 15 8 ∧
        m'.readByte (a.toNat + 2) = v.extractLsb 23 16 ∧ m'.readByte (a.toNat + 3) = v.extractLsb 31 24 ∧
        ∀ n, n < a.toNat ∨ a.toNat + 4 ≤ n → m'.readByte n = m.readByte n)

/-- 20_memory.md R65: a word written at a word-aligned address of a region reads back, for every word; the spec derives
there that such an address never overruns and that the round trip also holds unaligned where four bytes fit. -/
def Obligations.MemoryRoundTrip : Prop :=
  ∀ (m : Memory) (a v : Word), m.wf → a.toNat < 384 → a.toNat % 4 = 0 ∨ ¬ Overruns a →
    ∃ m', memWrite m a v = .ok m' ∧ memRead m' a = .ok v

/-- 20_memory.md R74 (the spec's derivation): after a STORE_WORD that lands in a region, a fetch from its address, in any
state with that memory, gives the stored word. -/
def Obligations.StoredWordIsFetched : Prop :=
  ∀ (rt rs : RegIdx) (imm : Word) (s t u : State), s.mem.wf → exec (.storeWord rt rs imm) s = .next t →
    (storeAddress s rs imm).toNat < 384 → u.mem = t.mem → u.pc = storeAddress s rs imm →
      fetch u = .ok (s.cur.read rt)

/-! ## Instructions: result, frame and completion -/

/-- 41_arith_logic.md section 2, ADD: it completes in every state, with cur[rd] + cur[rs] + cur[rt] in both snapshots' rd
(the old rd in the sum: the spec's decision D3; modulo 2^32: D1), and nothing else changes but `pc`, which the cycle
advances (log 4). -/
def Obligations.AddAccumulates : Prop :=
  ∀ (rd rs rt : RegIdx) (s : State), ∃ t, exec (.add rd rs rt) s = .next t ∧
    (t.cur.read rd).toNat = ((s.cur.read rd).toNat + (s.cur.read rs).toNat + (s.cur.read rt).toNat) % 2 ^ 32 ∧
    t.next.read rd = t.cur.read rd ∧
    SameRegistersBut rd s.cur t.cur ∧ SameRegistersBut rd s.next t.next ∧ SameControl s t ∧ SameMemory s t

/-- 41_arith_logic.md section 3, SUB: it completes in every state, with cur[rd] - (cur[rs] + cur[rt]) in both snapshots' rd
(modulo 2^32: the spec's decision D1), and nothing else changes. -/
def Obligations.SubSubtractsTheSum : Prop :=
  ∀ (rd rs rt : RegIdx) (s : State), ∃ t, exec (.sub rd rs rt) s = .next t ∧
    ((t.cur.read rd).toNat : Int) =
      ((s.cur.read rd).toNat - ((s.cur.read rs).toNat + (s.cur.read rt).toNat) : Int) % 2 ^ 32 ∧
    t.next.read rd = t.cur.read rd ∧
    SameRegistersBut rd s.cur t.cur ∧ SameRegistersBut rd s.next t.next ∧ SameControl s t ∧ SameMemory s t

/-- R143, OR: its words (mask 0xFC00003F, match 0x00000025) decode to it; it completes in every state, with cur[rs] |
cur[rt], bit by bit, in both snapshots' rd, and nothing else changes; `diag_regwin` is emitted if an index is outside
[8,23]. -/
def Obligations.OrOfTheSources : Prop :=
  (∀ w : Word, w &&& 0xFC00003F#32 = 0x00000025#32 → ∃ rd rs rt, decode w = .instr (.or rd rs rt)) ∧
  (∀ (rd rs rt : RegIdx) (s : State), ∃ t, exec (.or rd rs rt) s = .next t ∧
    (∀ k, k < 32 → (t.cur.read rd).getLsbD k = ((s.cur.read rs).getLsbD k || (s.cur.read rt).getLsbD k)) ∧
    t.next.read rd = t.cur.read rd ∧
    SameRegistersBut rd s.cur t.cur ∧ SameRegistersBut rd s.next t.next ∧ SameControl s t ∧ SameMemory s t) ∧
  (∀ rd rs rt : RegIdx, diagnostics (.instr (.or rd rs rt)) =
    ⟨false, decide (∃ r ∈ [rs, rt, rd], r.val < 8 ∨ 23 < r.val)⟩)

/-- 41_arith_logic.md R144: swapping the sources of OR changes nothing, and (the spec's derivation) with both sources `r`
and `rd ≠ r`, cur[rd] becomes cur[r] and cur[r] is unchanged. -/
def Obligations.OrLaws : Prop :=
  (∀ (rd rs rt : RegIdx) (s : State), exec (.or rd rs rt) s = exec (.or rd rt rs) s) ∧
  (∀ (rd r : RegIdx) (s : State), rd ≠ r →
    ∃ t, exec (.or rd r r) s = .next t ∧ t.cur.read rd = s.cur.read r ∧ t.cur.read r = s.cur.read r)

/-- 42_load_store.md section 2, STORE_WORD: at every address that does not overrun (the spec's decision D8) it completes;
the address is cur[rs] + imm modulo 2^32 (D2); a mapped address gets the four bytes of cur[rt], little-endian; every byte
outside them, and for an unmapped address every byte, reads as before; no register and nothing else changes. -/
def Obligations.StoreWordStores : Prop :=
  ∀ (rt rs : RegIdx) (imm : Word) (s : State), ¬ Overruns (storeAddress s rs imm) →
    (storeAddress s rs imm).toNat = ((s.cur.read rs).toNat + imm.toNat) % 2 ^ 32 ∧
    ∃ t, exec (.storeWord rt rs imm) s = .next t ∧ t.cur = s.cur ∧ t.next = s.next ∧ SameControl s t ∧
      (s.mem.wf → (storeAddress s rs imm).toNat < 384 →
        t.mem.readByte (storeAddress s rs imm).toNat = (s.cur.read rt).extractLsb 7 0 ∧
        t.mem.readByte ((storeAddress s rs imm).toNat + 1) = (s.cur.read rt).extractLsb 15 8 ∧
        t.mem.readByte ((storeAddress s rs imm).toNat + 2) = (s.cur.read rt).extractLsb 23 16 ∧
        t.mem.readByte ((storeAddress s rs imm).toNat + 3) = (s.cur.read rt).extractLsb 31 24) ∧
      (∀ n, n < (storeAddress s rs imm).toNat ∨ (storeAddress s rs imm).toNat + 4 ≤ n →
        t.mem.readByte n = s.mem.readByte n) ∧
      (384 ≤ (storeAddress s rs imm).toNat → SameMemory s t)

/-- 42_load_store.md section 3, LOAD_WORD: at every address that does not overrun (the spec's decision D8) it completes;
the address is next[rs] + imm modulo 2^32 (the spec's decisions D4, D2); next[rt] gets the word `MemRead` gives there, and
then cur[rs] gets next[rs] (D4), which is the loaded word if rt = rs and next[rs]'s old value if not; no other register,
no byte of memory and nothing else changes. -/
def Obligations.LoadWordLoadsIntoNext : Prop :=
  ∀ (rt rs : RegIdx) (imm : Word) (s : State), ¬ Overruns (loadAddress s rs imm) →
    (loadAddress s rs imm).toNat = ((s.next.read rs).toNat + imm.toNat) % 2 ^ 32 ∧
    ∃ t v, exec (.loadWord rt rs imm) s = .next t ∧ memRead s.mem (loadAddress s rs imm) = .ok v ∧
      t.next.read rt = v ∧ (rt = rs → t.cur.read rs = v) ∧ (rt ≠ rs → t.cur.read rs = s.next.read rs) ∧
      SameRegistersBut rs s.cur t.cur ∧ SameRegistersBut rt s.next t.next ∧ SameControl s t ∧ SameMemory s t

/-- 60_exceptions.md section 1 (R202) and 40_execution_cycle.md section 3 (R131), the spec's decision D8: a cycle whose LOAD_WORD or STORE_WORD
address is 253 to 255 or 381 to 383 faults with that address; the registers, memory, `pc` and TERMINAL_PC stay, the record
is the faulting one, the status becomes faulted, and no later step changes that state. That the fault carries the stopped
state is the model's form (log 3). -/
def Obligations.OverrunFaultsPrecisely : Prop :=
  ∀ (s : State) (w : Word) (i : Instr) (a : Word), Fetches s w → decode w = .instr i → accessAddress s i = some a →
    Overruns a →
      ∃ t, step s = .fault (.regionOverrun a t) ∧ t.cur = s.cur ∧ t.next = s.next ∧ t.mem = s.mem ∧ t.pc = s.pc ∧
        t.terminalPc = s.terminalPc ∧ t.ir = .holding (.instr i) ∧ t.status = .faulted a ∧ step t = .next t

/-- 60_exceptions.md section 1 (R200, R202; the spec's decision D8): from a word-aligned `pc`, a step faults only for a
LOAD_WORD or STORE_WORD whose address overruns. -/
def Obligations.OnlyOverrunningAccessesFault : Prop :=
  ∀ (s : State) (f : Fault), s.pc.toNat % 4 = 0 → step s = .fault f →
    ∃ w i a t, Fetches s w ∧ decode w = .instr i ∧ accessAddress s i = some a ∧ Overruns a ∧ f = .regionOverrun a t

/-- 40_execution_cycle.md R122 with 20_memory.md R67 (the spec's derivation): a fetch from a word-aligned `pc` never
overruns, and from an unmapped one it gives 0. -/
def Obligations.AlignedFetchNeverOverruns : Prop :=
  ∀ s : State, s.pc.toNat % 4 = 0 → ∃ w, fetch s = .ok w ∧ (384 ≤ s.pc.toNat → w = 0#32)

/-- 30_encoding.md section 4 (R103) and 60_exceptions.md section 1 (R200): no encoding traps; no step of the machine is
refused. -/
def Obligations.NoStepIsRefused : Prop := ∀ (s : State) (r : Refusal), step s ≠ .refused r

/-! ## The two snapshots -/

/-- R125: COMMIT copies at most one register from `next`, as EXECUTE left it, into `cur`: rd for ADD, SUB and OR; rs, not
rt, for LOAD_WORD; none for STORE_WORD and UNDEFINED. -/
def Obligations.CommitCopiesOneRegister : Prop :=
  (∀ (i : Instr) (s t : State), exec i s = .next t →
    match i with
    | .add rd _ _ | .sub rd _ _ | .or rd _ _ => t.cur.read rd = t.next.read rd ∧ SameRegistersBut rd s.cur t.cur
    | .loadWord _ rs _ => t.cur.read rs = t.next.read rs ∧ SameRegistersBut rs s.cur t.cur
    | .storeWord _ _ _ => t.cur = s.cur) ∧
  (∀ (why : UndefinedReason) (s t : State), runDecoded (.undefined why) s = .next t → t.cur = s.cur)

/-- 10_state.md sections 1 and 2 (R30, R33, and the spec's derivation R34): over any step, a register of `cur` changes
only if the step commits it, and a register of `next` only if the step's EXECUTE writes it; nothing clears `next`. -/
def Obligations.RegistersChangeOnlyByTheirInstructions : Prop :=
  ∀ (s t : State) (r : RegIdx), step s = .next t →
    (t.cur.read r ≠ s.cur.read r → ∃ w i, Fetches s w ∧ decode w = .instr i ∧ commitTarget i = some r) ∧
    (t.next.read r ≠ s.next.read r → ∃ w i, Fetches s w ∧ decode w = .instr i ∧ nextTarget i = some r)

/-- 10_state.md R35 (the spec's derivation): a register that reads alike in both snapshots still does after a cycle,
unless the cycle is a LOAD_WORD with that register as rt. -/
def Obligations.SnapshotsPartOnlyByLoads : Prop :=
  ∀ (s t : State) (w : Word) (r : RegIdx), Fetches s w → step s = .next t → s.cur.read r = s.next.read r →
    (∀ rs imm, decode w ≠ .instr (.loadWord r rs imm)) → t.cur.read r = t.next.read r

/-- 10_state.md R33 and 90_conflicts.md C4: `next` is read only by LOAD_WORD's address and by COMMIT. So for ADD, SUB, OR
and STORE_WORD, replacing `next` before the instruction changes neither `cur` nor memory after it, nor whether it faults. -/
def Obligations.OnlyLoadWordReadsNext : Prop :=
  ∀ (i : Instr) (s : State) (n : RegFile), (∀ rt rs imm, i ≠ .loadWord rt rs imm) →
    (∀ t, exec i s = .next t → ∃ u, exec i { s with next := n } = .next u ∧ u.cur = t.cur ∧ u.mem = t.mem) ∧
    (∀ a t, exec i s = .fault (.regionOverrun a t) → ∃ u, exec i { s with next := n } = .fault (.regionOverrun a u))

/-- 70_reset_and_hazards.md R243 (the spec's derivation): a word that a LOAD_WORD put into next[r] becomes visible in
cur[r] through a following LOAD_WORD with base r and another destination, which also takes its address from that word. -/
def Obligations.LoadedWordPassesThroughNext : Prop :=
  ∀ (r rs q : RegIdx) (imm imm' : Word) (s t u : State), exec (.loadWord r rs imm) s = .next t →
    exec (.loadWord q r imm') t = .next u → q ≠ r →
      memRead s.mem (loadAddress s rs imm) = .ok (u.cur.read r) ∧
      memRead t.mem (u.cur.read r + imm') = .ok (u.next.read q) ∧ (r ≠ rs → t.cur.read r = s.cur.read r)

/-- 70_reset_and_hazards.md R241 and R242 (the spec's derivations): `or $r, $r, $r` makes next[r] = cur[r] and keeps
cur[r]; `or $d, $z, $z` and, for z ≠ d, `sub $d, $d, $z` clear cur[d] when cur[z] = 0. -/
def Obligations.ProgrammingIdioms : Prop :=
  (∀ (r : RegIdx) (s : State),
    ∃ t, exec (.or r r r) s = .next t ∧ t.cur.read r = s.cur.read r ∧ t.next.read r = s.cur.read r) ∧
  (∀ (d z : RegIdx) (s : State), s.cur.read z = 0#32 →
    (∃ t, exec (.or d z z) s = .next t ∧ t.cur.read d = 0#32) ∧
    (z ≠ d → ∃ t, exec (.sub d d z) s = .next t ∧ t.cur.read d = 0#32))

/-! ## The cycle -/

/-- 40_execution_cycle.md section 1 (R120, R124, R126, R127): a step that fetches a word which decodes to `i` is `exec i`
on the state with the record and the diagnostics written, then the PC advance and the record reset; a fault of `exec` is
the step's. Where the model puts these around `exec` is log 4. -/
def Obligations.StepRunsTheDecodedInstruction : Prop :=
  ∀ (s : State) (w : Word) (i : Instr), Fetches s w → decode w = .instr i →
    (∀ t, exec i { s with ir := .holding (.instr i), diag := some (diagnostics (.instr i)) } = .next t →
      step s = .next { t with pc := t.pc + 4#32, ir := .empty }) ∧
    (∀ f, exec i { s with ir := .holding (.instr i), diag := some (diagnostics (.instr i)) } = .fault f →
      step s = .fault f)

/-- R128: a word with opcode 0 and funct not 32, 34, 37, or with opcode not 0, 35, 43, changes no register and no byte of
memory; `pc` advances by 4 and `diag_undef` is emitted; nothing faults. The example 0x0000003F and the all-zero word are
such words, and so is every word fetched from an unmapped address (from 384 upward). -/
def Obligations.UndefinedWordIsANoOp : Prop :=
  (∀ (s : State) (w : Word), Fetches s w →
    (w.extractLsb 31 26 = 0 ∧ w.extractLsb 5 0 ≠ 32 ∧ w.extractLsb 5 0 ≠ 34 ∧ w.extractLsb 5 0 ≠ 37 ∨
      w.extractLsb 31 26 ≠ 0 ∧ w.extractLsb 31 26 ≠ 35 ∧ w.extractLsb 31 26 ≠ 43) →
    step s = .next { s with pc := s.pc + 4#32, ir := .empty, diag := some ⟨true, false⟩ }) ∧
  (∀ (s : State) (w : Word), Fetches s w → w = 0x0000003F#32 ∨ w = 0#32 →
    step s = .next { s with pc := s.pc + 4#32, ir := .empty, diag := some ⟨true, false⟩ }) ∧
  (∀ s : State, s.status = .running → s.pc ≠ s.terminalPc → 384 ≤ s.pc.toNat →
    step s = .next { s with pc := s.pc + 4#32, ir := .empty, diag := some ⟨true, false⟩ })

/-- 40_execution_cycle.md R126 with 10_state.md section 3 (R36; modulo 2^32 is the spec's decision D21): every cycle that
completes, whatever its word, leaves `pc` at the fetched address plus 4. -/
def Obligations.EveryCycleAdvancesPcByFour : Prop :=
  ∀ (s t : State) (w : Word), Fetches s w → step s = .next t → t.pc.toNat = (s.pc.toNat + 4) % 2 ^ 32

/-- R127: after a completed cycle the record is EMPTY, and no field of an earlier record reaches a cycle: the step is the
same whatever record the state held before. -/
def Obligations.RecordReachesNoLaterCycle : Prop :=
  ∀ (s : State) (w : Word), Fetches s w →
    (∀ t, step s = .next t → t.ir = .empty) ∧ ∀ ir : InstrRecord, step { s with ir := ir } = step s

/-- 10_state.md section 6 (R40): the diagnostic outputs are emitted once in a cycle as the decoder gives them, and no rule
reads them: the step is the same whatever they were before. That the model holds them in State is log 1. -/
def Obligations.DiagnosticsAreOutputsOnly : Prop :=
  ∀ (s : State) (w : Word), Fetches s w →
    (∀ t, step s = .next t → t.diag = some (diagnostics (decode w))) ∧
    ∀ d : Option Diagnostics, step { s with diag := d } = step s

/-- 40_execution_cycle.md section 1, the halt test (equality is the spec's decision D6), and 10_state.md section 8: a
running block with pc = TERMINAL_PC becomes halted and nothing else changes; halted and faulted are final (faulted: the
spec's decision D8). That an idle block waits is log 2. -/
def Obligations.HaltTestAndFinalStatus : Prop :=
  (∀ s : State, s.status = .running → s.pc = s.terminalPc → step s = .next { s with status := .halted }) ∧
  (∀ s : State, s.status = .halted → step s = .next s) ∧
  (∀ (s : State) (a : Word), s.status = .faulted a → step s = .next s) ∧
  (∀ s : State, s.status = .idle → step s = .next s)

/-- 10_state.md sections 4, 7 and 8 (R38, R42, R43): no step writes TERMINAL_PC, and a step that completes leaves the run
status, except that a running block halts exactly when pc = TERMINAL_PC. -/
def Obligations.StepsKeepTerminalPcAndStatus : Prop :=
  ∀ s t : State, step s = .next t →
    t.terminalPc = s.terminalPc ∧
    (t.status = s.status ∨ s.status = .running ∧ s.pc = s.terminalPc ∧ t.status = .halted) ∧
    (s.status = .running → (t.status = .halted ↔ s.pc = s.terminalPc))

/-- 20_memory.md section 7 and 42_load_store.md section 2: over any step, a byte of memory changes only if the step runs a
STORE_WORD that writes it. -/
def Obligations.MemoryChangesOnlyByStores : Prop :=
  ∀ (s t : State) (n : Nat), step s = .next t → t.mem.readByte n ≠ s.mem.readByte n →
    ∃ w rt rs imm, Fetches s w ∧ decode w = .instr (.storeWord rt rs imm) ∧
      (storeAddress s rs imm).toNat ≤ n ∧ n < (storeAddress s rs imm).toNat + 4 ∧ n < 384

/-! ## Reset, launch, run -/

/-- 10_state.md section 9 (R44; the reset event is the spec's decision D15): at reset both snapshots, `pc`, TERMINAL_PC and
every byte of memory are zero, the record is EMPTY, the block is idle and there is no diagnostic event. -/
def Obligations.ResetValues : Prop :=
  (∀ r : RegIdx, State.reset.cur.read r = 0#32 ∧ State.reset.next.read r = 0#32) ∧
  State.reset.pc = 0#32 ∧ State.reset.terminalPc = 0#32 ∧ State.reset.ir = .empty ∧
  (∀ a : Nat, State.reset.mem.readByte a = 0#8) ∧ State.reset.status = .idle ∧ State.reset.diag = none

/-- The invariant holds at reset. -/
def Obligations.ResetMeetsTheInvariant : Prop := State.reset.Inv

/-- Every step keeps the invariant: the canonical form of memory, the alignment of `pc` and TERMINAL_PC (the spec's
derivation in 10_state.md section 3), the EMPTY record between instructions, and that a running block has not passed its
terminal PC. -/
def Obligations.EveryStepKeepsTheInvariant : Prop := ∀ s t : State, s.Inv → step s = .next t → t.Inv

/-- 70_reset_and_hazards.md section 2 (R231, R233 to R236; the spec's decisions D5, D6, D11, D18): with a readable program
of N words and TERMINAL_PC = 256 + 4N <= 2^32 - 4, the launch of the reset block gives the presets, pc = 256, status
running; program word i reads back at 256 + 4i for i < 32; every byte from the end of the program on is 0; and the
invariant holds. -/
def Obligations.LaunchStartsTheRun : Prop :=
  ∀ (l : LaunchInputs) (ps : List Word), l.program = some ps → l.terminalPc.toNat = 256 + 4 * ps.length →
    l.terminalPc.toNat ≤ 2 ^ 32 - 4 →
      ∃ s, launch l State.reset = .next s ∧ s.cur = l.cur ∧ s.next = l.next ∧ s.pc = 256#32 ∧
        s.terminalPc = l.terminalPc ∧ s.status = .running ∧ s.ir = .empty ∧ s.diag = none ∧
        (∀ k : Fin 256, s.mem.readByte k = l.data[k]) ∧
        (∀ i : Fin ps.length, i.val < 32 → memRead s.mem (BitVec.ofNat 32 (256 + 4 * i.val)) = .ok ps[i]) ∧
        (∀ a, 256 + 4 * ps.length ≤ a → s.mem.readByte a = 0#8) ∧ s.Inv

/-- 70_reset_and_hazards.md section 2 (R232; the spec's decisions D6, D19): the launch is refused when the program source
could not be read, or when TERMINAL_PC is not 256 + 4N or exceeds 2^32 - 4. That a block which is not idle is not launched
is log 6. -/
def Obligations.LaunchIsRefusedWithoutItsPremises : Prop :=
  (∀ l : LaunchInputs, l.program = none → launch l State.reset = .refused .programUnreadable) ∧
  (∀ (l : LaunchInputs) (ps : List Word), l.program = some ps →
    l.terminalPc.toNat ≠ 256 + 4 * ps.length ∨ 2 ^ 32 - 4 < l.terminalPc.toNat →
      launch l State.reset = .refused .terminalPcMismatch) ∧
  (∀ (l : LaunchInputs) (s : State), s.status ≠ .idle → launch l s = .refused .alreadyLaunched)

/-- 40_execution_cycle.md section 3 (R129, R130, the spec's derivations): a run of an N-word program from any launch ends.
Either it is halted after N cycles and the halt step, with pc = TERMINAL_PC, and cycle k fetched from 256 + 4k; or some
cycle k < N faults with RegionOverrun, at pc = 256 + 4k. No run is infinite. -/
def Obligations.EveryLaunchedRunEnds : Prop :=
  ∀ (l : LaunchInputs) (ps : List Word) (s : State), l.program = some ps → launch l State.reset = .next s →
    (∃ t, run (ps.length + 1) s = .next t ∧ t.status = .halted ∧ t.pc = l.terminalPc ∧
      ∀ k, k ≤ ps.length →
        ∃ u, run k s = .next u ∧ u.status = .running ∧ u.pc.toNat = 256 + 4 * k) ∨
    (∃ k u a t, k < ps.length ∧ run k s = .next u ∧ step u = .fault (.regionOverrun a t) ∧
      t.status = .faulted a ∧ t.pc.toNat = 256 + 4 * k)

/-- The model's placing of an instruction (log 5): in any state whose memory is in its canonical form, the next step after
`withFetchWord` fetches exactly that word, and no register of either snapshot has changed. -/
def Obligations.PlacedWordIsFetchedNext : Prop :=
  ∀ (s : State) (w : Nat), s.mem.wf →
    Fetches (s.withFetchWord 32 w) (BitVec.ofNat 32 w) ∧ (s.withFetchWord 32 w).cur = s.cur ∧
      (s.withFetchWord 32 w).next = s.next

/-- 70_reset_and_hazards.md section 3 (R237; what is observed is the spec's decision D22): the host sees `cur`, `pc`, the
status, and the bytes of regions D and I in order, and nothing of `next`. -/
def Obligations.ObservationOfAState : Prop :=
  ∀ s : State,
    (observe s).cur = s.cur ∧ (observe s).pc = s.pc ∧ (observe s).status = s.status ∧
    (observe s).data.length = 256 ∧ (∀ k, k < 256 → (observe s).data[k]? = some (s.mem.readByte k)) ∧
    (observe s).instrs.length = 128 ∧ (∀ k, k < 128 → (observe s).instrs[k]? = some (s.mem.readByte (256 + k))) ∧
    ∀ n : RegFile, observe { s with next := n } = observe s
end

