-- ==== Sys2Proof/Laws/Decode.lean ====
section
/-! SUPPORT. The fields of an encoded word, the word as its fields, and immediates. -/

namespace Sys2Proof

/-- The fields of six appended pieces (spec/30_encoding.md R92). -/
theorem fields_of_append_R (op : BitVec 6) (rs rt rd sh : BitVec 5) (f : BitVec 6) :
    BitVec.extractLsb' 26 6 (op ++ rs ++ rt ++ rd ++ sh ++ f) = op ∧
    BitVec.extractLsb' 21 5 (op ++ rs ++ rt ++ rd ++ sh ++ f) = rs ∧
    BitVec.extractLsb' 16 5 (op ++ rs ++ rt ++ rd ++ sh ++ f) = rt ∧
    BitVec.extractLsb' 11 5 (op ++ rs ++ rt ++ rd ++ sh ++ f) = rd ∧
    BitVec.extractLsb' 0 6 (op ++ rs ++ rt ++ rd ++ sh ++ f) = f := by
  refine ⟨?_, ?_, ?_, ?_, BitVec.extractLsb'_append_eq_right⟩
  · iterate 5 rw [BitVec.extractLsb'_append_eq_of_le (by decide)]
    exact BitVec.extractLsb'_eq_self
  · iterate 4 rw [BitVec.extractLsb'_append_eq_of_le (by decide)]
    exact BitVec.extractLsb'_append_eq_right
  · iterate 3 rw [BitVec.extractLsb'_append_eq_of_le (by decide)]
    exact BitVec.extractLsb'_append_eq_right
  · iterate 2 rw [BitVec.extractLsb'_append_eq_of_le (by decide)]
    exact BitVec.extractLsb'_append_eq_right

/-- The fields of four appended pieces (R93). -/
theorem fields_of_append_I (op : BitVec 6) (rs rt : BitVec 5) (imm : BitVec 16) :
    BitVec.extractLsb' 26 6 (op ++ rs ++ rt ++ imm) = op ∧
    BitVec.extractLsb' 21 5 (op ++ rs ++ rt ++ imm) = rs ∧
    BitVec.extractLsb' 16 5 (op ++ rs ++ rt ++ imm) = rt ∧
    BitVec.extractLsb' 0 16 (op ++ rs ++ rt ++ imm) = imm := by
  refine ⟨?_, ?_, ?_, BitVec.extractLsb'_append_eq_right⟩
  · iterate 3 rw [BitVec.extractLsb'_append_eq_of_le (by decide)]
    exact BitVec.extractLsb'_eq_self
  · iterate 2 rw [BitVec.extractLsb'_append_eq_of_le (by decide)]
    exact BitVec.extractLsb'_append_eq_right
  · rw [BitVec.extractLsb'_append_eq_of_le (by decide)]
    exact BitVec.extractLsb'_append_eq_right

/-- A word is its R-format fields in order, bits 10:6 among them. -/
theorem append_fields_R (w : Word) :
    w.extractLsb' 26 6 ++ w.extractLsb' 21 5 ++ w.extractLsb' 16 5 ++ w.extractLsb' 11 5 ++ w.extractLsb' 6 5 ++
      w.extractLsb' 0 6 = w := by
  iterate 5 rw [BitVec.extractLsb'_append_extractLsb'_eq_extractLsb' (by decide)]
  exact BitVec.extractLsb'_eq_self

/-- A word is its I-format fields in order. -/
theorem append_fields_I (w : Word) :
    w.extractLsb' 26 6 ++ w.extractLsb' 21 5 ++ w.extractLsb' 16 5 ++ w.extractLsb' 0 16 = w := by
  iterate 3 rw [BitVec.extractLsb'_append_extractLsb'_eq_extractLsb' (by decide)]
  exact BitVec.extractLsb'_eq_self

section Encoded
variable (rs rt rd : RegIdx) (op f : BitVec 6) (imm : Word)

@[simp] theorem opcodeOf_encodeR : opcodeOf (encodeR rs rt rd f) = 0#6 := (fields_of_append_R _ _ _ _ _ _).1
@[simp] theorem rsOf_encodeR : rsOf (encodeR rs rt rd f) = rs :=
  congrArg BitVec.toFin (fields_of_append_R _ _ _ _ _ _).2.1
@[simp] theorem rtOf_encodeR : rtOf (encodeR rs rt rd f) = rt :=
  congrArg BitVec.toFin (fields_of_append_R _ _ _ _ _ _).2.2.1
@[simp] theorem rdOf_encodeR : rdOf (encodeR rs rt rd f) = rd :=
  congrArg BitVec.toFin (fields_of_append_R _ _ _ _ _ _).2.2.2.1
@[simp] theorem functOf_encodeR : functOf (encodeR rs rt rd f) = f := (fields_of_append_R _ _ _ _ _ _).2.2.2.2
@[simp] theorem opcodeOf_encodeI : opcodeOf (encodeI op rs rt imm) = op := (fields_of_append_I _ _ _ _).1
@[simp] theorem rsOf_encodeI : rsOf (encodeI op rs rt imm) = rs :=
  congrArg BitVec.toFin (fields_of_append_I _ _ _ _).2.1
@[simp] theorem rtOf_encodeI : rtOf (encodeI op rs rt imm) = rt :=
  congrArg BitVec.toFin (fields_of_append_I _ _ _ _).2.2.1
@[simp] theorem immOf_encodeI : immOf (encodeI op rs rt imm) = (imm.extractLsb' 0 16).signExtend 32 :=
  congrArg (BitVec.signExtend 32) (fields_of_append_I _ _ _ _).2.2.2

end Encoded

/-- A sign-extended 16-bit field is in range (R94). -/
theorem immInRange_signExtend (x : BitVec 16) : immInRange (x.signExtend 32) = true := by
  have h : (x.signExtend 32).toInt = x.toInt := BitVec.toInt_signExtend_of_le (by decide)
  have := BitVec.two_mul_toInt_lt (x := x)
  have := BitVec.le_two_mul_toInt (x := x)
  simp only [immInRange, h, Bool.and_eq_true, decide_eq_true_eq]
  omega

/-- An immediate in range is the sign extension of its low 16 bits (R94). -/
theorem signExtend_extractLsb'_of_immInRange {imm : Word} (h : immInRange imm = true) :
    (imm.extractLsb' 0 16).signExtend 32 = imm := by
  simp only [immInRange, Bool.and_eq_true, decide_eq_true_eq] at h
  apply BitVec.eq_of_toInt_eq
  have hx : (imm.extractLsb' 0 16).toNat = imm.toNat % 2 ^ 16 := by simp [BitVec.extractLsb'_toNat]
  rw [BitVec.toInt_signExtend_of_le (by decide)]
  have hi := BitVec.toInt_eq_toNat_cond imm
  rw [BitVec.toInt_eq_toNat_cond, hx]
  have := imm.isLt
  split at hi <;> split <;> omega

/-! ## Masks (R102) -/

/-- A word is known by its R-format fields. -/
theorem word_eq_of_fields_R {v w : Word} (h1 : v.extractLsb' 26 6 = w.extractLsb' 26 6)
    (h2 : v.extractLsb' 21 5 = w.extractLsb' 21 5) (h3 : v.extractLsb' 16 5 = w.extractLsb' 16 5)
    (h4 : v.extractLsb' 11 5 = w.extractLsb' 11 5) (h5 : v.extractLsb' 6 5 = w.extractLsb' 6 5)
    (h6 : v.extractLsb' 0 6 = w.extractLsb' 0 6) : v = w := by
  rw [← append_fields_R v, ← append_fields_R w, h1, h2, h3, h4, h5, h6]

/-- A word is known by its I-format fields. -/
theorem word_eq_of_fields_I {v w : Word} (h1 : v.extractLsb' 26 6 = w.extractLsb' 26 6)
    (h2 : v.extractLsb' 21 5 = w.extractLsb' 21 5) (h3 : v.extractLsb' 16 5 = w.extractLsb' 16 5)
    (h4 : v.extractLsb' 0 16 = w.extractLsb' 0 16) : v = w := by
  rw [← append_fields_I v, ← append_fields_I w, h1, h2, h3, h4]

/-- A pattern under a mask has, in every field, only bits of the mask. -/
theorem extractLsb'_of_and_eq {p mask : Word} (hp : p &&& mask = p) (start len : Nat) :
    p.extractLsb' start len = p.extractLsb' start len &&& mask.extractLsb' start len := by
  conv_lhs => rw [← hp, BitVec.extractLsb'_and]

/-- The R-format mask tests exactly the opcode and the function code. -/
theorem and_maskR_eq_iff (w : Word) {p : Word} (hp : p &&& 0xFC00003F#32 = p) :
    w &&& 0xFC00003F#32 = p ↔ opcodeOf w = opcodeOf p ∧ functOf w = functOf p := by
  constructor
  · rintro rfl
    simp only [opcodeOf, functOf, BitVec.extractLsb'_and]
    constructor <;> exact BitVec.and_allOnes.symm
  · rintro ⟨ho, hf⟩
    unfold opcodeOf at ho
    unfold functOf at hf
    refine word_eq_of_fields_R ?_ ?_ ?_ ?_ ?_ ?_ <;> rw [extractLsb'_of_and_eq hp, BitVec.extractLsb'_and]
    · rw [ho]
    · exact BitVec.and_zero.trans BitVec.and_zero.symm
    · exact BitVec.and_zero.trans BitVec.and_zero.symm
    · exact BitVec.and_zero.trans BitVec.and_zero.symm
    · exact BitVec.and_zero.trans BitVec.and_zero.symm
    · rw [hf]

/-- The I-format mask tests exactly the opcode. -/
theorem and_maskI_eq_iff (w : Word) {p : Word} (hp : p &&& 0xFC000000#32 = p) :
    w &&& 0xFC000000#32 = p ↔ opcodeOf w = opcodeOf p := by
  constructor
  · rintro rfl
    simp only [opcodeOf, BitVec.extractLsb'_and]
    exact BitVec.and_allOnes.symm
  · intro ho
    unfold opcodeOf at ho
    refine word_eq_of_fields_I ?_ ?_ ?_ ?_ <;> rw [extractLsb'_of_and_eq hp, BitVec.extractLsb'_and]
    · rw [ho]
    · exact BitVec.and_zero.trans BitVec.and_zero.symm
    · exact BitVec.and_zero.trans BitVec.and_zero.symm
    · exact BitVec.and_zero.trans BitVec.and_zero.symm

/-! ## The decoder -/

/-- Every decoded instruction is one of these, by its word's fields (R96, R99). -/
theorem decode_cases {w : Word} {i : Instr} (h : decode w = .instr i) :
    (opcodeOf w = 0#6 ∧ functOf w = 32#6 ∧ i = .add (rdOf w) (rsOf w) (rtOf w)) ∨
    (opcodeOf w = 0#6 ∧ functOf w = 34#6 ∧ i = .sub (rdOf w) (rsOf w) (rtOf w)) ∨
    (opcodeOf w = 0#6 ∧ functOf w = 37#6 ∧ i = .or (rdOf w) (rsOf w) (rtOf w)) ∨
    (opcodeOf w = 35#6 ∧ i = .loadWord (rtOf w) (rsOf w) (immOf w)) ∨
    (opcodeOf w = 43#6 ∧ i = .storeWord (rtOf w) (rsOf w) (immOf w)) := by
  unfold decode at h
  split at h
  · next ho =>
    unfold decodeR at h
    split at h
    · next hf => exact .inl ⟨ho, hf, by simpa using h.symm⟩
    · split at h
      · next hf => exact .inr (.inl ⟨ho, hf, by simpa using h.symm⟩)
      · split at h
        · next hf => exact .inr (.inr (.inl ⟨ho, hf, by simpa using h.symm⟩))
        · cases h
  · unfold decodeI at h
    split at h
    · next hf => exact .inr (.inr (.inr (.inl ⟨hf, by simpa using h.symm⟩)))
    · split at h
      · next hf => exact .inr (.inr (.inr (.inr ⟨hf, by simpa using h.symm⟩)))
      · cases h

end Sys2Proof
end

