-- ==== Sys2Proof/Laws/Diagnostics.lean ====
section
/-! SUPPORT. The register window in numbers, and what `regwin` says of a record. -/

namespace Sys2Proof.Machine

theorem inWindow_iff (r : RegIdx) : inWindow r = true ↔ 8 ≤ r.val ∧ r.val ≤ 23 := by
  simp only [inWindow, Bool.and_eq_true, decide_eq_true_eq]
  rfl

theorem allInWindow_iff (rd rs rt : RegIdx) :
    allInWindow rd rs rt = true ↔
      (8 ≤ rs.val ∧ rs.val ≤ 23) ∧ (8 ≤ rt.val ∧ rt.val ≤ 23) ∧ (8 ≤ rd.val ∧ rd.val ≤ 23) := by
  simp only [allInWindow, Bool.and_eq_true, inWindow_iff, and_assoc]

/-- The diagnostic is the failure of the window test (spec/30_encoding.md R100). -/
theorem not_allInWindow_iff (rd rs rt : RegIdx) :
    (!allInWindow rd rs rt) = true ↔
      (rs.val < 8 ∨ 23 < rs.val) ∨ (rt.val < 8 ∨ 23 < rt.val) ∨ (rd.val < 8 ∨ 23 < rd.val) := by
  rw [Bool.not_eq_true', ← Bool.not_eq_true, allInWindow_iff]
  omega

end Sys2Proof.Machine
end

