-- ==== Sys2Proof/Laws/State.lean ====
section
/-! SUPPORT. One lemma per field of the state and per update of it, so that no later proof unfolds a record update. -/

namespace Sys2Proof.Machine

section SetNext
variable (s : State) (r : RegIdx) (v : Word)
@[simp] theorem State.setNext_cur : (s.setNext r v).cur = s.cur := rfl
@[simp] theorem State.setNext_next : (s.setNext r v).next = s.next.write r v := rfl
@[simp] theorem State.setNext_pc : (s.setNext r v).pc = s.pc := rfl
@[simp] theorem State.setNext_terminalPc : (s.setNext r v).terminalPc = s.terminalPc := rfl
@[simp] theorem State.setNext_ir : (s.setNext r v).ir = s.ir := rfl
@[simp] theorem State.setNext_mem : (s.setNext r v).mem = s.mem := rfl
@[simp] theorem State.setNext_status : (s.setNext r v).status = s.status := rfl
@[simp] theorem State.setNext_diag : (s.setNext r v).diag = s.diag := rfl
end SetNext

section Commit
variable (s : State) (r : RegIdx)
@[simp] theorem State.commit_cur : (s.commit r).cur = s.cur.write r (s.next.read r) := rfl
@[simp] theorem State.commit_next : (s.commit r).next = s.next := rfl
@[simp] theorem State.commit_pc : (s.commit r).pc = s.pc := rfl
@[simp] theorem State.commit_terminalPc : (s.commit r).terminalPc = s.terminalPc := rfl
@[simp] theorem State.commit_ir : (s.commit r).ir = s.ir := rfl
@[simp] theorem State.commit_mem : (s.commit r).mem = s.mem := rfl
@[simp] theorem State.commit_status : (s.commit r).status = s.status := rfl
@[simp] theorem State.commit_diag : (s.commit r).diag = s.diag := rfl
end Commit

section FinishCycle
variable (s : State)
@[simp] theorem State.finishCycle_cur : s.finishCycle.cur = s.cur := rfl
@[simp] theorem State.finishCycle_next : s.finishCycle.next = s.next := rfl
@[simp] theorem State.finishCycle_pc : s.finishCycle.pc = s.pc + 4#32 := rfl
@[simp] theorem State.finishCycle_terminalPc : s.finishCycle.terminalPc = s.terminalPc := rfl
@[simp] theorem State.finishCycle_ir : s.finishCycle.ir = .empty := rfl
@[simp] theorem State.finishCycle_mem : s.finishCycle.mem = s.mem := rfl
@[simp] theorem State.finishCycle_status : s.finishCycle.status = s.status := rfl
@[simp] theorem State.finishCycle_diag : s.finishCycle.diag = s.diag := rfl
end FinishCycle

section Latch
variable (s : State) (d : Decoded)
@[simp] theorem State.latch_cur : (s.latch d).cur = s.cur := rfl
@[simp] theorem State.latch_next : (s.latch d).next = s.next := rfl
@[simp] theorem State.latch_pc : (s.latch d).pc = s.pc := rfl
@[simp] theorem State.latch_terminalPc : (s.latch d).terminalPc = s.terminalPc := rfl
@[simp] theorem State.latch_ir : (s.latch d).ir = .holding d := rfl
@[simp] theorem State.latch_mem : (s.latch d).mem = s.mem := rfl
@[simp] theorem State.latch_status : (s.latch d).status = s.status := rfl
@[simp] theorem State.latch_diag : (s.latch d).diag = some (diagnostics d) := rfl
end Latch

section Halt
variable (s : State)
@[simp] theorem State.halt_cur : s.halt.cur = s.cur := rfl
@[simp] theorem State.halt_next : s.halt.next = s.next := rfl
@[simp] theorem State.halt_pc : s.halt.pc = s.pc := rfl
@[simp] theorem State.halt_terminalPc : s.halt.terminalPc = s.terminalPc := rfl
@[simp] theorem State.halt_ir : s.halt.ir = s.ir := rfl
@[simp] theorem State.halt_mem : s.halt.mem = s.mem := rfl
@[simp] theorem State.halt_status : s.halt.status = .halted := rfl
@[simp] theorem State.halt_diag : s.halt.diag = s.diag := rfl
end Halt

end Sys2Proof.Machine
end

