-- ==== Sys2Proof/Laws/Memory.lean ====
section
/-! SUPPORT. Memory: reading after a write, the canonical form, the region lookup, and what the two access primitives
answer. -/

namespace Sys2Proof.Machine

/-! ## Bytes -/

theorem Memory.readByte_nil (a : Nat) : Memory.readByte [] a = Config.unlistedByte := rfl

/-- An address below every listed one reads as unlisted. -/
theorem Memory.readByte_of_lt {m : Memory} {a : Nat} (h : ∀ c ∈ m, a < c.1) :
    m.readByte a = Config.unlistedByte := by
  induction m with
  | nil => rfl
  | cons c m ih =>
    have hc := h c (by simp)
    simp only [Memory.readByte]
    rw [if_neg (by omega), ih fun d hd => h d (by simp [hd])]

theorem Memory.readByte_push_same {m : Memory} {a : Nat} {v : Byte} (h : ∀ c ∈ m, a < c.1) :
    (Memory.push m a v).readByte a = v := by
  unfold Memory.push
  split
  · next hv => rw [Memory.readByte_of_lt h, hv]
  · simp [Memory.readByte]

theorem Memory.readByte_push_ne {m : Memory} {a b : Nat} {v : Byte} (h : b ≠ a) :
    (Memory.push m a v).readByte b = m.readByte b := by
  unfold Memory.push
  split
  · rfl
  · simp [Memory.readByte, h.symm]

/-- A write changes no other byte. -/
theorem Memory.readByte_writeByte_ne (m : Memory) {a b : Nat} (v : Byte) (h : b ≠ a) :
    (m.writeByte a v).readByte b = m.readByte b := by
  induction m with
  | nil => exact Memory.readByte_push_ne h
  | cons c m ih =>
    simp only [Memory.writeByte]
    split
    · exact Memory.readByte_push_ne h
    · split
      · next hac => rw [Memory.readByte_push_ne h, Memory.readByte, if_neg (by omega)]
      · simp only [Memory.readByte, ih]

/-- In a memory in canonical form, a byte reads as it was written. -/
theorem Memory.readByte_writeByte_same {m : Memory} (hs : m.Pairwise (fun c d => c.1 < d.1)) (a : Nat) (v : Byte) :
    (m.writeByte a v).readByte a = v := by
  induction m with
  | nil => exact Memory.readByte_push_same (by simp)
  | cons c m ih =>
    obtain ⟨hc, hm⟩ := List.pairwise_cons.mp hs
    simp only [Memory.writeByte]
    split
    · next hlt =>
      refine Memory.readByte_push_same fun d hd => ?_
      rcases List.mem_cons.mp hd with rfl | hd
      · exact hlt
      · have := hc d hd; omega
    · split
      · next heq => exact Memory.readByte_push_same fun d hd => by have := hc d hd; omega
      · rw [Memory.readByte, if_neg (by omega), ih hm]

/-! ## The canonical form -/

theorem Memory.mem_push {m : Memory} {a : Nat} {v : Byte} {c : Host.Cell} (h : c ∈ Memory.push m a v) :
    c ∈ m ∨ c = (a, v) ∧ v ≠ Config.unlistedByte := by
  unfold Memory.push at h
  split at h
  · exact .inl h
  · next hv =>
    rcases List.mem_cons.mp h with rfl | h
    · exact .inr ⟨rfl, hv⟩
    · exact .inl h

theorem Memory.mem_writeByte {m : Memory} {a : Nat} {v : Byte} {c : Host.Cell} (h : c ∈ m.writeByte a v) :
    c ∈ m ∨ c = (a, v) ∧ v ≠ Config.unlistedByte := by
  induction m with
  | nil => exact Memory.mem_push h
  | cons d m ih =>
    simp only [Memory.writeByte] at h
    split at h
    · exact Memory.mem_push h
    · split at h
      · rcases Memory.mem_push h with h | h
        · exact .inl (by simp [h])
        · exact .inr h
      · rcases List.mem_cons.mp h with rfl | h
        · exact .inl (by simp)
        · rcases ih h with h | h
          · exact .inl (by simp [h])
          · exact .inr h

theorem Memory.pairwise_push {m : Memory} {a : Nat} (v : Byte) (hs : m.Pairwise (fun c d => c.1 < d.1))
    (h : ∀ c ∈ m, a < c.1) : (Memory.push m a v).Pairwise (fun c d => c.1 < d.1) := by
  unfold Memory.push
  split
  · exact hs
  · exact List.pairwise_cons.mpr ⟨h, hs⟩

theorem Memory.pairwise_writeByte {m : Memory} (a : Nat) (v : Byte) (hs : m.Pairwise (fun c d => c.1 < d.1)) :
    (m.writeByte a v).Pairwise (fun c d => c.1 < d.1) := by
  induction m with
  | nil => exact Memory.pairwise_push v hs (by simp)
  | cons c m ih =>
    obtain ⟨hc, hm⟩ := List.pairwise_cons.mp hs
    simp only [Memory.writeByte]
    split
    · next hlt =>
      refine Memory.pairwise_push v hs fun d hd => ?_
      rcases List.mem_cons.mp hd with rfl | hd
      · exact hlt
      · have := hc d hd; omega
    · split
      · next heq => exact Memory.pairwise_push v hm fun d hd => by have := hc d hd; omega
      · refine List.pairwise_cons.mpr ⟨fun d hd => ?_, ih hm⟩
        rcases Memory.mem_writeByte hd with hd | ⟨rfl, _⟩
        · exact hc d hd
        · simp only; omega

/-- A byte written in a region keeps the canonical form. -/
theorem Memory.wf_writeByte {m : Memory} (h : m.wf) {a : Nat} (ha : Config.mapped a = true) (v : Byte) :
    (m.writeByte a v).wf := by
  refine ⟨Memory.pairwise_writeByte a v h.1, fun c hc => ?_⟩
  rcases Memory.mem_writeByte hc with hc | ⟨rfl, hv⟩
  · exact h.2 c hc
  · exact ⟨hv, ha⟩

theorem Memory.wf_nil : Memory.wf [] := by simp [Memory.wf]

theorem Config.mapped_iff (a : Nat) : Config.mapped a = true ↔ a < 384 := by
  simp [Config.mapped, Config.regions, Region.contains, Config.dataRegion, Config.instrRegion]
  omega

/-- Outside the regions every byte of a memory in canonical form is unlisted. -/
theorem Memory.readByte_unmapped {m : Memory} (h : m.wf) {a : Nat} (ha : 384 ≤ a) :
    m.readByte a = Config.unlistedByte := by
  obtain ⟨-, h⟩ := h
  induction m with
  | nil => rfl
  | cons c m ih =>
    have hc := (Config.mapped_iff c.1).mp (h c (by simp)).2
    rw [Memory.readByte, if_neg (by omega), ih fun d hd => h d (by simp [hd])]

/-! ## Words -/

/-- A word store changes no byte outside its four. -/
theorem Memory.readByte_writeWord_outside (m : Memory) {a b : Nat} (v : Word) (h : b < a ∨ a + 4 ≤ b) :
    (m.writeWord a v).readByte b = m.readByte b := by
  unfold Memory.writeWord
  rw [Memory.readByte_writeByte_ne _ _ (by omega), Memory.readByte_writeByte_ne _ _ (by omega),
    Memory.readByte_writeByte_ne _ _ (by omega), Memory.readByte_writeByte_ne _ _ (by omega)]

/-- The four bytes of a word store, lowest address first (spec/20_memory.md R64, R66). -/
theorem Memory.readByte_writeWord {m : Memory} (h : m.Pairwise (fun c d => c.1 < d.1)) (a : Nat) (v : Word) :
    (m.writeWord a v).readByte a = byteOf v 0 ∧ (m.writeWord a v).readByte (a + 1) = byteOf v 1 ∧
      (m.writeWord a v).readByte (a + 2) = byteOf v 2 ∧ (m.writeWord a v).readByte (a + 3) = byteOf v 3 := by
  have h0 := Memory.pairwise_writeByte a (byteOf v 0) h
  have h1 := Memory.pairwise_writeByte (a + 1) (byteOf v 1) h0
  have h2 := Memory.pairwise_writeByte (a + 2) (byteOf v 2) h1
  unfold Memory.writeWord
  refine ⟨?_, ?_, ?_, Memory.readByte_writeByte_same h2 _ _⟩
  · rw [Memory.readByte_writeByte_ne _ _ (by omega), Memory.readByte_writeByte_ne _ _ (by omega),
      Memory.readByte_writeByte_ne _ _ (by omega), Memory.readByte_writeByte_same h]
  · rw [Memory.readByte_writeByte_ne _ _ (by omega), Memory.readByte_writeByte_ne _ _ (by omega),
      Memory.readByte_writeByte_same h0]
  · rw [Memory.readByte_writeByte_ne _ _ (by omega), Memory.readByte_writeByte_same h1]

theorem Memory.wf_writeWord {m : Memory} (h : m.wf) {a : Nat} (ha : a + 3 < 384) (v : Word) :
    (m.writeWord a v).wf := by
  unfold Memory.writeWord
  refine Memory.wf_writeByte (Memory.wf_writeByte (Memory.wf_writeByte (Memory.wf_writeByte h ?_ _) ?_ _) ?_ _) ?_ _ <;>
    exact (Config.mapped_iff _).mpr (by omega)

/-- A word's four bytes make the word (R64, R65). -/
theorem leWord_byteOf (w : Word) : leWord (byteOf w 0) (byteOf w 1) (byteOf w 2) (byteOf w 3) = w := by
  unfold leWord byteOf
  apply BitVec.eq_of_getLsbD_eq
  intro i hi
  simp only [BitVec.getLsbD_append, BitVec.getLsbD_extractLsb']
  repeat' split
  all_goals first
    | (simp only [show (i - 8 - 8 - 8 < 8) = True from by simp; omega, decide_true, Bool.true_and]; congr 1; omega)
    | (simp only [show (i - 8 - 8 < 8) = True from by simp; omega, decide_true, Bool.true_and]; congr 1; omega)
    | (simp only [show (i - 8 < 8) = True from by simp; omega, decide_true, Bool.true_and]; congr 1; omega)
    | (simp only [show (i < 8) = True from by simp; omega, decide_true, Bool.true_and]; congr 1; omega)

/-- The word of four bytes as the spec writes it, with shifts (R63). -/
theorem leWord_eq_or_shift (b0 b1 b2 b3 : Byte) :
    leWord b0 b1 b2 b3 =
      b0.setWidth 32 ||| b1.setWidth 32 <<< 8 ||| b2.setWidth 32 <<< 16 ||| b3.setWidth 32 <<< 24 := by
  unfold leWord
  apply BitVec.eq_of_getLsbD_eq
  intro i hi
  simp only [BitVec.getLsbD_append, BitVec.getLsbD_or, BitVec.getLsbD_shiftLeft, BitVec.getLsbD_setWidth]
  by_cases h1 : i < 8
  · simp [h1, hi, show i < 16 by omega, show i < 24 by omega]
  · have h0 := BitVec.getLsbD_of_ge b0 i (by omega)
    by_cases h2 : i < 16
    · simp [h0, h1, h2, hi, show i - 8 < 8 by omega, show i < 24 by omega, show i - 8 < 32 by omega]
    · have h1' := BitVec.getLsbD_of_ge b1 (i - 8) (by omega)
      by_cases h3 : i < 24
      · simp [h0, h1, h1', h2, h3, hi, show ¬ i - 8 < 8 by omega, show i - 8 < 32 by omega,
          show i - 16 < 32 by omega, show i - 8 - 8 = i - 16 by omega, show i - 16 < 8 by omega]
      · have h2' := BitVec.getLsbD_of_ge b2 (i - 16) (by omega)
        simp [h0, h1, h1', h2, h2', h3, hi, show ¬ i - 8 < 8 by omega, show ¬ i - 8 - 8 < 8 by omega,
          show i - 8 < 32 by omega, show i - 16 < 32 by omega, show i - 24 < 32 by omega,
          show i - 8 - 8 - 8 = i - 24 by omega]

/-- A stored word reads back (R65). -/
theorem Memory.readWord_writeWord {m : Memory} (h : m.Pairwise (fun c d => c.1 < d.1)) (a : Nat) (v : Word) :
    (m.writeWord a v).readWord a = v := by
  obtain ⟨h0, h1, h2, h3⟩ := Memory.readByte_writeWord h a v
  rw [Memory.readWord, h0, h1, h2, h3, leWord_byteOf]

/-! ## The access primitives -/

/-- The lookup in numbers (R61, R62). -/
theorem owner_eq (a : Word) :
    owner a = if a.toNat < 256 then some Config.dataRegion
      else if a.toNat < 384 then some Config.instrRegion else none := by
  simp only [owner, Config.regions, List.find?, Region.contains, Config.dataRegion, Config.instrRegion]
  by_cases h : a.toNat < 256
  · simp [h]
  · by_cases h' : a.toNat < 384
    · simp [h, h', show 256 ≤ a.toNat by omega]
    · simp [h, h']

theorem overrunsRegion_dataRegion (a : Word) : overrunsRegion Config.dataRegion a = decide (252 < a.toNat) := by
  rw [Bool.eq_iff_iff]
  simp [overrunsRegion, Config.dataRegion, Config.wordBytes]
  omega

theorem overrunsRegion_instrRegion {a : Word} (h : 256 ≤ a.toNat) :
    overrunsRegion Config.instrRegion a = decide (380 < a.toNat) := by
  rw [Bool.eq_iff_iff]
  simp [overrunsRegion, Config.instrRegion, Config.wordBytes]
  omega

/-- All that `MemRead` can answer (R63). -/
theorem memRead_eq (m : Memory) (a : Word) :
    memRead m a = if 384 ≤ a.toNat then .ok 0#32
      else if 252 < a.toNat ∧ a.toNat < 256 ∨ 380 < a.toNat then .error ⟨a⟩ else .ok (m.readWord a.toNat) := by
  unfold memRead
  rw [owner_eq]
  by_cases hd : a.toNat < 256
  · have : ¬ 384 ≤ a.toNat ∧ ¬ 380 < a.toNat := by omega
    simp [hd, this, overrunsRegion_dataRegion]
  · by_cases hi : a.toNat < 384
    · have : ¬ 384 ≤ a.toNat := by omega
      simp [hd, hi, this, overrunsRegion_instrRegion (show 256 ≤ a.toNat by omega)]
    · simp [hd, hi, show 384 ≤ a.toNat by omega]

/-- All that `MemWrite` can answer (R64). -/
theorem memWrite_eq (m : Memory) (a v : Word) :
    memWrite m a v = if 384 ≤ a.toNat then .ok m
      else if 252 < a.toNat ∧ a.toNat < 256 ∨ 380 < a.toNat then .error ⟨a⟩ else .ok (m.writeWord a.toNat v) := by
  unfold memWrite
  rw [owner_eq]
  by_cases hd : a.toNat < 256
  · have : ¬ 384 ≤ a.toNat ∧ ¬ 380 < a.toNat := by omega
    simp [hd, this, overrunsRegion_dataRegion]
  · by_cases hi : a.toNat < 384
    · have : ¬ 384 ≤ a.toNat := by omega
      simp [hd, hi, this, overrunsRegion_instrRegion (show 256 ≤ a.toNat by omega)]
    · simp [hd, hi, show 384 ≤ a.toNat by omega]

/-- `MemWrite` keeps the canonical form. -/
theorem memWrite_wf {m m' : Memory} {a v : Word} (hm : m.wf) (h : memWrite m a v = .ok m') : m'.wf := by
  rw [memWrite_eq] at h
  split at h
  · cases h; exact hm
  · split at h
    · cases h
    · cases h; exact Memory.wf_writeWord hm (by omega) v

end Sys2Proof.Machine
end

