-- ==== Sys2Proof/Laws/Registers.lean ====
section
/-! SUPPORT. Reading a register after a write. -/

namespace Sys2Proof.Machine

theorem RegFile.read_write (f : RegFile) (r q : RegIdx) (v : Word) :
    (f.write r v).read q = if r = q then v else f.read q := by
  simp only [RegFile.read, RegFile.write, Fin.getElem_fin, Vector.getElem_set, Fin.ext_iff]

@[simp] theorem RegFile.read_write_same (f : RegFile) (r : RegIdx) (v : Word) : (f.write r v).read r = v := by
  simp [RegFile.read_write]

theorem RegFile.read_write_ne (f : RegFile) {r q : RegIdx} (v : Word) (h : q ≠ r) :
    (f.write r v).read q = f.read q := by
  simp [RegFile.read_write, h.symm]

@[simp] theorem RegFile.read_zero (r : RegIdx) : RegFile.zero.read r = 0#32 := by
  simp [RegFile.read, RegFile.zero]

/-- Two register files that read the same are the same. -/
theorem RegFile.ext_read {f g : RegFile} (h : ∀ r, f.read r = g.read r) : f = g := by
  apply Vector.ext
  intro i hi
  exact h ⟨i, hi⟩

/-- A register result reaches both snapshots (spec/10_state.md R35). -/
theorem State.writeResult_cur (s : State) (r : RegIdx) (v : Word) :
    (s.writeResult r v).cur = s.cur.write r v := by
  simp [State.writeResult]

theorem State.writeResult_next (s : State) (r : RegIdx) (v : Word) :
    (s.writeResult r v).next = s.next.write r v := rfl

/-- Everything a register result does. -/
theorem State.writeResult_eq (s : State) (r : RegIdx) (v : Word) :
    s.writeResult r v = { s with cur := s.cur.write r v, next := s.next.write r v } := by
  simp [State.writeResult, State.commit, State.setNext]

end Sys2Proof.Machine
end

