-- ==== Sys2Proof/Laws/Execution.lean ====
section
/-! SUPPORT. What an access, an instruction, a cycle and a step can do, each said once. -/

namespace Sys2Proof.Machine

/-! ## Accesses -/

/-- An access that completes went on with its value; one that faults overran. -/
theorem withAccess_next {α : Type} {s t : State} {acc : Except RegionOverrun α} {k : α → Result}
    (h : withAccess s acc k = .next t) : ∃ v, acc = .ok v ∧ k v = .next t := by
  cases acc with
  | ok v => exact ⟨v, rfl, h⟩
  | error e => cases h

theorem withAccess_fault {α : Type} {s : State} {f : Fault} {acc : Except RegionOverrun α} {k : α → Result}
    (h : withAccess s acc k = .fault f) :
    (∃ v, acc = .ok v ∧ k v = .fault f) ∨
      ∃ e, acc = .error e ∧ f = .regionOverrun e.addr { s with status := .faulted e.addr } := by
  cases acc with
  | ok v => exact .inl ⟨v, rfl, h⟩
  | error e =>
    simp only [withAccess, raiseRegionOverrun, Host.Outcome.fault.injEq] at h
    exact .inr ⟨e, rfl, h.symm⟩

/-- `MemRead` overruns exactly at the six addresses, and says which (spec/60_exceptions.md R202). -/
theorem memRead_error {m : Memory} {a : Word} {e : RegionOverrun} (h : memRead m a = .error e) :
    e = ⟨a⟩ ∧ Overruns a := by
  rw [memRead_eq] at h
  split at h
  · cases h
  · split at h
    · cases h; exact ⟨rfl, by unfold Overruns; omega⟩
    · cases h

theorem memWrite_error {m : Memory} {a v : Word} {e : RegionOverrun} (h : memWrite m a v = .error e) :
    e = ⟨a⟩ ∧ Overruns a := by
  rw [memWrite_eq] at h
  split at h
  · cases h
  · split at h
    · cases h; exact ⟨rfl, by unfold Overruns; omega⟩
    · cases h

/-! ## Instructions -/

/-- Everything `exec` does when it gives a next state. -/
theorem exec_next_cases {i : Instr} {s t : State} (h : exec i s = .next t) :
    (∃ rd v, nextTarget i = some rd ∧ commitTarget i = some rd ∧ accessAddress s i = none ∧ t = s.writeResult rd v) ∨
    (∃ rt rs imm v, i = .loadWord rt rs imm ∧ memRead s.mem (loadAddress s rs imm) = .ok v ∧
      t = (s.setNext rt v).commit rs) ∨
    (∃ rt rs imm m, i = .storeWord rt rs imm ∧ memWrite s.mem (storeAddress s rs imm) (s.cur.read rt) = .ok m ∧
      t = { s with mem := m }) := by
  cases i with
  | add rd rs rt => cases h; exact .inl ⟨rd, _, rfl, rfl, rfl, rfl⟩
  | sub rd rs rt => cases h; exact .inl ⟨rd, _, rfl, rfl, rfl, rfl⟩
  | or rd rs rt => cases h; exact .inl ⟨rd, _, rfl, rfl, rfl, rfl⟩
  | loadWord rt rs imm =>
    obtain ⟨v, hv, hk⟩ := withAccess_next h
    cases hk
    exact .inr (.inl ⟨rt, rs, imm, v, rfl, hv, rfl⟩)
  | storeWord rt rs imm =>
    obtain ⟨m, hm, hk⟩ := withAccess_next h
    cases hk
    exact .inr (.inr ⟨rt, rs, imm, m, rfl, hm, rfl⟩)

/-- Everything `exec` does when it faults: the access overran and the state is as before but for its status. -/
theorem exec_fault_cases {i : Instr} {s : State} {f : Fault} (h : exec i s = .fault f) :
    ∃ a, accessAddress s i = some a ∧ Overruns a ∧ f = .regionOverrun a { s with status := .faulted a } := by
  cases i with
  | add rd rs rt => cases h
  | sub rd rs rt => cases h
  | or rd rs rt => cases h
  | loadWord rt rs imm =>
    obtain ⟨v, _, hk⟩ | ⟨e, he, hf⟩ := withAccess_fault h
    · cases hk
    · obtain ⟨rfl, ho⟩ := memRead_error he
      exact ⟨_, rfl, ho, hf⟩
  | storeWord rt rs imm =>
    obtain ⟨v, _, hk⟩ | ⟨e, he, hf⟩ := withAccess_fault h
    · cases hk
    · obtain ⟨rfl, ho⟩ := memWrite_error he
      exact ⟨_, rfl, ho, hf⟩

/-- What no instruction touches: `exec` leaves everything but the snapshots and memory. -/
theorem exec_sameControl {i : Instr} {s t : State} (h : exec i s = .next t) : SameControl s t := by
  obtain ⟨rd, v, _, _, _, rfl⟩ | ⟨rt, rs, imm, v, _, _, rfl⟩ | ⟨rt, rs, imm, m, _, _, rfl⟩ := exec_next_cases h <;>
    simp [SameControl, State.writeResult]

/-- `exec` keeps the canonical form of memory. -/
theorem exec_wf {i : Instr} {s t : State} (hm : s.mem.wf) (h : exec i s = .next t) : t.mem.wf := by
  obtain ⟨rd, v, _, _, _, rfl⟩ | ⟨rt, rs, imm, v, _, _, rfl⟩ | ⟨rt, rs, imm, m, _, hw, rfl⟩ := exec_next_cases h
  · exact hm
  · exact hm
  · exact memWrite_wf hm hw

/-! ## Cycles and steps -/

/-- A cycle that completes: it fetched a word, ran what the word decodes to, and finished. -/
theorem cycle_next {s t : State} (h : cycle s = .next t) :
    ∃ w u, fetch s = .ok w ∧ runDecoded (decode w) (s.latch (decode w)) = .next u ∧ t = u.finishCycle := by
  obtain ⟨w, hw, hk⟩ := withAccess_next h
  revert hk
  cases hr : runDecoded (decode w) (s.latch (decode w)) with
  | next u =>
    intro hk
    simp only [finish, Host.Outcome.next.injEq] at hk
    exact ⟨w, u, hw, hr, hk.symm⟩
  | fault f => simp [finish]
  | refused r => simp [finish]

/-- Everything a step does when it gives a next state. -/
theorem step_next_cases {s t : State} (h : step s = .next t) :
    (s.status ≠ .running ∧ t = s) ∨
    (s.status = .running ∧ s.pc = s.terminalPc ∧ t = s.halt) ∨
    (∃ w u, Fetches s w ∧ runDecoded (decode w) (s.latch (decode w)) = .next u ∧ t = u.finishCycle) := by
  unfold step at h
  split at h
  · next hr =>
    unfold runStep at h
    split at h
    · next hp => cases h; exact .inr (.inl ⟨hr, hp, rfl⟩)
    · next hp =>
      obtain ⟨w, u, hw, hu, rfl⟩ := cycle_next h
      exact .inr (.inr ⟨w, u, ⟨hr, hp, hw⟩, hu, rfl⟩)
  · next hr => cases h; exact .inl ⟨hr, rfl⟩

/-- What a record leads to when it completes: an instruction's `exec`, or nothing for UNDEFINED. -/
theorem runDecoded_next_cases {d : Decoded} {s t : State} (h : runDecoded d s = .next t) :
    (∃ i, d = .instr i ∧ exec i s = .next t) ∨ (∃ why, d = .undefined why ∧ t = s) := by
  cases d with
  | instr i => exact .inl ⟨i, rfl, h⟩
  | undefined why => cases h; exact .inr ⟨why, rfl, rfl⟩

/-- A step that fetches is the run of the fetched word's record, finished. -/
theorem step_of_fetches {s : State} {w : Word} (h : Fetches s w) :
    step s = finish (runDecoded (decode w) (s.latch (decode w))) := by
  obtain ⟨hr, hp, hf⟩ := h
  simp [step, runStep, cycle, withAccess, hr, hp, hf]

/-! ## Runs -/

/-- A run of any machine goes on after its first step. -/
theorem core_run_succ {M : Host.Core} {s t : M.State} (k : Nat) (h : M.step s = .next t) :
    M.run (k + 1) s = M.run k t := by
  simp only [Host.Core.run, h]

@[simp] theorem run_zero (s : State) : run 0 s = .next s := rfl

theorem run_succ_of_next {s t : State} (k : Nat) (h : step s = .next t) : run (k + 1) s = run k t :=
  core_run_succ (M := Sys2Proof.core) k h

end Sys2Proof.Machine
end

