-- ==== Sys2Proof/Laws/Launch.lean ====
section
/-! SUPPORT. What the loader, the presets and the launch's premise do, each said once (spec/70_reset_and_hazards.md R232
to R234). -/

namespace Sys2Proof.Machine

/-- The premise in numbers (R232). -/
theorem terminalPcAgrees_iff (terminalPc : Word) (n : Nat) :
    terminalPcAgrees terminalPc n = true ↔ terminalPc.toNat = 256 + 4 * n ∧ terminalPc.toNat ≤ 2 ^ 32 - 4 := by
  simp only [terminalPcAgrees, Bool.and_eq_true, beq_iff_eq, decide_eq_true_eq]
  rfl

/-- One aligned store of the loader: dropped above the regions, a word of memory inside them. -/
theorem memWrite_aligned {m : Memory} {a : Word} (hm : m.wf) (ha : a.toNat % 4 = 0) (p : Word) :
    ∃ m', memWrite m a p = .ok m' ∧ m'.wf ∧
      (∀ n, n < a.toNat ∨ a.toNat + 4 ≤ n → m'.readByte n = m.readByte n) ∧
      (a.toNat < 384 → m'.readWord a.toNat = p) := by
  rw [memWrite_eq]
  by_cases hu : 384 ≤ a.toNat
  · exact ⟨m, if_pos hu, hm, fun _ _ => rfl, fun h => by omega⟩
  · refine ⟨m.writeWord a.toNat p, ?_, Memory.wf_writeWord hm (by omega) p, ?_, ?_⟩
    · rw [if_neg hu, if_neg (by omega)]
    · exact fun n hn => Memory.readByte_writeWord_outside _ _ hn
    · exact fun _ => Memory.readWord_writeWord hm.1 _ _

/-- The loader from an aligned address: it never overruns, it changes no byte outside the program's span, and the words
inside the regions read back. -/
theorem loadProgram_spec (ps : List Word) : ∀ (m : Memory) (a : Word), m.wf → a.toNat % 4 = 0 →
    a.toNat + 4 * ps.length < 2 ^ 32 →
    ∃ m', loadProgram m a ps = .ok m' ∧ m'.wf ∧
      (∀ n, n < a.toNat ∨ a.toNat + 4 * ps.length ≤ n → m'.readByte n = m.readByte n) ∧
      (∀ i : Fin ps.length, a.toNat + 4 * i.val < 384 → m'.readWord (a.toNat + 4 * i.val) = ps[i]) := by
  induction ps with
  | nil => exact fun m a hm _ _ => ⟨m, rfl, hm, fun _ _ => rfl, fun i => absurd i.isLt (by simp)⟩
  | cons p ps ih =>
    intro m a hm ha hb
    simp only [List.length_cons] at hb
    obtain ⟨m1, hw, hm1, ho, hr⟩ := memWrite_aligned hm ha p
    have ha4 : (a + BitVec.ofNat 32 Config.wordBytes).toNat = a.toNat + 4 := by
      simp [BitVec.toNat_add, Config.wordBytes]; omega
    obtain ⟨m', hl, hm', ho', hr'⟩ := ih m1 (a + BitVec.ofNat 32 Config.wordBytes) hm1 (by omega) (by omega)
    refine ⟨m', by rw [loadProgram, hw]; exact hl, hm', fun n hn => ?_, fun ⟨i, hil⟩ hi => ?_⟩
    · simp only [List.length_cons] at hn
      rw [ho' n (by omega), ho n (by omega)]
    · cases i with
      | zero =>
        have e := hr hi
        simp only [Nat.mul_zero, Nat.add_zero, Memory.readWord] at e ⊢
        rw [ho' _ (by omega), ho' _ (by omega), ho' _ (by omega), ho' _ (by omega), e]
        rfl
      | succ j =>
        have e := hr' ⟨j, by simpa using hil⟩ (by simp only at hi ⊢; omega)
        simp only [ha4] at e ⊢
        rw [show a.toNat + 4 * (j + 1) = a.toNat + 4 + 4 * j by omega, e]
        rfl

/-- The presets: the bytes given read back, no other byte changes. -/
theorem presetBytes_spec (bs : List Byte) : ∀ (m : Memory) (a : Nat), m.wf → a + bs.length ≤ 384 →
    (presetBytes m a bs).wf ∧
      (∀ n, n < a ∨ a + bs.length ≤ n → (presetBytes m a bs).readByte n = m.readByte n) ∧
      (∀ k : Fin bs.length, (presetBytes m a bs).readByte (a + k.val) = bs[k]) := by
  induction bs with
  | nil => exact fun m a hm _ => ⟨hm, fun _ _ => rfl, fun k => absurd k.isLt (by simp)⟩
  | cons b bs ih =>
    intro m a hm h
    simp only [List.length_cons] at h
    obtain ⟨h1, h2, h3⟩ :=
      ih (m.writeByte a b) (a + 1) (Memory.wf_writeByte hm ((Config.mapped_iff a).mpr (by omega)) b) (by omega)
    refine ⟨h1, fun n hn => ?_, fun ⟨k, hk⟩ => ?_⟩
    · simp only [List.length_cons] at hn
      rw [presetBytes, h2 n (by omega), Memory.readByte_writeByte_ne _ _ (by omega)]
    · cases k with
      | zero =>
        rw [presetBytes, h2 _ (by simp)]
        exact Memory.readByte_writeByte_same hm.1 _ _
      | succ j =>
        have e := h3 ⟨j, by simpa using hk⟩
        simp only at e ⊢
        rw [presetBytes, show a + (j + 1) = a + 1 + j by omega, e]
        rfl

end Sys2Proof.Machine
end

