-- ==== Sys2Proof/Laws/PerInstr.lean ====
section
/-! SUPPORT. Statements made for each instruction: its word is one of its row's in the opcode map (spec/30_encoding.md
R102). -/

namespace Sys2Proof.Laws.EncodesIntoItsRow

/-- The encoded word matches the row of the instruction. -/
def Statement (i : Instr) : Prop := i.row.matchesWord (encode i) = true

theorem add (rd rs rt : RegIdx) : Statement (.add rd rs rt) := by
  simp only [Statement, Instr.row, encode, OpcodeRow.matchesWord, beq_iff_eq]
  exact (and_maskR_eq_iff _ (by decide)).mpr ⟨opcodeOf_encodeR .., functOf_encodeR ..⟩

theorem sub (rd rs rt : RegIdx) : Statement (.sub rd rs rt) := by
  simp only [Statement, Instr.row, encode, OpcodeRow.matchesWord, beq_iff_eq]
  exact (and_maskR_eq_iff _ (by decide)).mpr ⟨opcodeOf_encodeR .., functOf_encodeR ..⟩

theorem or (rd rs rt : RegIdx) : Statement (.or rd rs rt) := by
  simp only [Statement, Instr.row, encode, OpcodeRow.matchesWord, beq_iff_eq]
  exact (and_maskR_eq_iff _ (by decide)).mpr ⟨opcodeOf_encodeR .., functOf_encodeR ..⟩

theorem loadWord (rt rs : RegIdx) (imm : Word) : Statement (.loadWord rt rs imm) := by
  simp only [Statement, Instr.row, encode, OpcodeRow.matchesWord, beq_iff_eq]
  exact (and_maskI_eq_iff _ (by decide)).mpr (opcodeOf_encodeI ..)

theorem storeWord (rt rs : RegIdx) (imm : Word) : Statement (.storeWord rt rs imm) := by
  simp only [Statement, Instr.row, encode, OpcodeRow.matchesWord, beq_iff_eq]
  exact (and_maskI_eq_iff _ (by decide)).mpr (opcodeOf_encodeI ..)

end Sys2Proof.Laws.EncodesIntoItsRow
end

