-- ==== Sys2Proof/Tests/Slice0.lean ====
section
/-! SUPPORT. Tests of the model against the spec's own vectors (spec/95_test_vectors.md), the smoke test of WellFormed,
and for each statement with hypotheses a state and operands that meet them. Expected values are the spec's. -/

namespace Sys2Proof.Tests
open Sys2Proof.Machine

/-! ## Helpers -/

/-- Set some registers. -/
def setRegs (f : RegFile) : List (RegIdx × Word) → RegFile
  | [] => f
  | (r, v) :: rs => setRegs (f.write r v) rs

/-- A one-word program about to run, with some registers of `cur` and `next` set (every other register 0). -/
def ready (w : Nat) (cur next : List (RegIdx × Word)) : State :=
  { State.reset.withFetchWord 32 w with cur := setRegs RegFile.zero cur, next := setRegs RegFile.zero next }

/-- The same with a word of memory stored. -/
def readyMem (w : Nat) (a v : Word) (cur next : List (RegIdx × Word)) : State :=
  { ready w cur next with mem := (ready w cur next).mem.placeWord a v }

/-- The answer is a next state with this property. -/
def nextWith (p : State → Bool) : Result → Bool
  | .next s => p s
  | _ => false

/-- The answer is the overrun of this address, in a stopped state with this property. -/
def overrunAt (a : Word) (p : State → Bool) : Result → Bool
  | .fault (.regionOverrun b s) => a == b && p s
  | _ => false

/-- The answer is this refusal. -/
def refusedBy (r : Refusal) : Result → Bool
  | .refused q => r == q
  | _ => false

/-! ## WellFormed: an ill-formed term for each check -/

theorem test_immediate_above_range_refused : (Instr.loadWord 10 8 0x00008000#32).wellFormed = false := by decide
theorem test_immediate_below_range_refused : (Instr.loadWord 10 8 0xFFFF7FFF#32).wellFormed = false := by decide
theorem test_store_immediate_above_range_refused : (Instr.storeWord 9 8 0x00008000#32).wellFormed = false := by decide
theorem test_store_immediate_below_range_refused : (Instr.storeWord 9 8 0xFFFF7FFF#32).wellFormed = false := by decide

/-! ## Decoding: words written out from the field tables (R92, R93), and V-DEC -/

theorem test_decode_add : decode 0b000000_10000_10000_10001_00000_100000#32 = .instr (.add 17 16 16) := by decide
theorem test_decode_sub : decode 0b000000_01000_01001_01010_00000_100010#32 = .instr (.sub 10 8 9) := by decide
theorem test_decode_or : decode 0b000000_01010_01011_01100_00000_100101#32 = .instr (.or 12 10 11) := by decide
theorem test_decode_loadWord :
    decode 0b100011_01000_01010_1000000000000000#32 = .instr (.loadWord 10 8 0xFFFF8000#32) := by decide
theorem test_decode_storeWord :
    decode 0b101011_01000_01001_0000000000000100#32 = .instr (.storeWord 9 8 4#32) := by decide
/-- V-DEC-3: bits 10:6 are ignored. -/
theorem test_decode_ignores_bits_10_6 : decode 0x02108FE0#32 = .instr (.add 17 16 16) := by decide
/-- V-DEC-8, V-DEC-19: every field at its greatest value. -/
theorem test_decode_all_ones_fields :
    decode 0x03FFF825#32 = .instr (.or 31 31 31) ∧ decode 0xAFFFFFFF#32 = .instr (.storeWord 31 31 0xFFFFFFFF#32) := by
  decide
/-- V-DEC-10, 11, 20, 22. -/
theorem test_decode_undefined :
    decode 0#32 = .undefined .unknownFunct ∧ decode 0x00000021#32 = .undefined .unknownFunct ∧
      decode 0x08000000#32 = .undefined .unknownOpcode ∧ decode 0xFC000000#32 = .undefined .unknownOpcode := by decide
/-- V-DEC-2, V-DEC-7: the window diagnostic. -/
theorem test_regwin :
    diagnostics (decode 0x02028820#32) = ⟨false, true⟩ ∧ diagnostics (decode 0x02F7B822#32) = ⟨false, false⟩ := by
  decide
theorem test_encode_store : encode (.storeWord 9 8 4#32) = 0xAD090004#32 := by decide
theorem test_encode_add : encode (.add 17 16 16) = 0x02108820#32 := by decide
theorem test_decodeTableWord :
    decodeTableWord 32 0x014B6025 = some (.or 12 10 11) ∧ decodeTableWord 32 0x0000003F = none := by decide
theorem test_decode_bytes_truncated : decodeBytes [0x20, 0x88, 0x10] = .truncated := by decide

/-! ## Memory primitives -/

/-- V-MEM's start: bytes 0 to 7 are 11 22 33 44 55 66 77 88. -/
def vmem : Memory :=
  [(0, 0x11), (1, 0x22), (2, 0x33), (3, 0x44), (4, 0x55), (5, 0x66), (6, 0x77), (7, 0x88)]

/-- V-MEM-2. -/
theorem test_unaligned_read : memRead vmem 1#32 = .ok 0x55443322#32 := by decide
/-- V-MEM-4. -/
theorem test_unaligned_write :
    memWrite vmem 2#32 0xAABBCCDD#32 =
      .ok [(0, 0x11), (1, 0x22), (2, 0xDD), (3, 0xCC), (4, 0xBB), (5, 0xAA), (6, 0x77), (7, 0x88)] := by decide
/-- V-MEM-5, 6, 7, 8, 9: the regions' ends. -/
theorem test_region_ends :
    memRead vmem 252#32 = .ok 0#32 ∧ memRead vmem 253#32 = .error ⟨253#32⟩ ∧ memRead vmem 255#32 = .error ⟨255#32⟩ ∧
      memRead vmem 256#32 = .ok 0#32 ∧ memRead vmem 380#32 = .ok 0#32 ∧ memRead vmem 381#32 = .error ⟨381#32⟩ ∧
      memRead vmem 383#32 = .error ⟨383#32⟩ ∧ memRead vmem 384#32 = .ok 0#32 ∧
      memRead vmem 0xFFFFFFFF#32 = .ok 0#32 := by decide
/-- V-MEM-10; and a zero byte is not listed, so equal memories are equal lists. -/
theorem test_writes_keep_the_form :
    memWrite vmem 384#32 0x12345678#32 = .ok vmem ∧ memWrite vmem 0#32 0x44000000#32 =
      .ok [(3, 0x44), (4, 0x55), (5, 0x66), (6, 0x77), (7, 0x88)] := by decide

/-! ## Instructions, one step each -/

/-- V-ADD-2: the old destination is in the sum. -/
theorem test_add_accumulates :
    nextWith (fun t => t.cur.read 10 == 0xE#32 && t.next.read 10 == 0xE#32 && t.pc == 260#32)
      (step (ready 0x01095020 [(8, 3#32), (9, 4#32), (10, 7#32)] [])) = true := by decide
/-- V-ADD-7: register 0 is ordinary, and `diag_regwin` is emitted. -/
theorem test_add_register_zero :
    nextWith (fun t => t.cur.read 0 == 3#32 && t.diag == some ⟨false, true⟩)
      (step (ready 0x00000020 [(0, 1#32)] [])) = true := by decide
/-- V-SUB-5. -/
theorem test_sub :
    nextWith (fun t => t.cur.read 10 == 0xFFFFFFFC#32)
      (step (ready 0x01095022 [(8, 2#32), (9, 3#32), (10, 1#32)] [])) = true := by decide
/-- V-SUB-7: one register in all three places. -/
theorem test_sub_same_register :
    nextWith (fun t => t.cur.read 23 == 0xFFFFFFF9#32) (step (ready 0x02F7B822 [(23, 7#32)] [])) = true := by decide
/-- V-OR-1. -/
theorem test_or :
    nextWith (fun t => t.cur.read 12 == 0x1F3F5F7F#32 && t.next.read 12 == 0x1F3F5F7F#32)
      (step (ready 0x014B6025 [(10, 0x12345678#32), (11, 0x0F0F0F0F#32)] [])) = true := by decide
/-- V-OR-3: the old destination is not read. -/
theorem test_or_ignores_destination :
    nextWith (fun t => t.cur.read 12 == 0#32) (step (ready 0x014B6025 [(12, 0xFFFFFFFF#32)] [])) = true := by decide
/-- V-SW-5 and V-SW-11: unaligned, base from `cur`. -/
theorem test_store_unaligned :
    nextWith (fun t => memRead t.mem 0#32 == .ok 0xCCDD0000#32 && memRead t.mem 4#32 == .ok 0x0000AABB#32)
      (step (ready 0xAD090000 [(8, 2#32), (9, 0xAABBCCDD#32)] [(8, 0x20#32)])) = true := by decide
/-- V-SW-7: the overrun, with the faulting record kept and `pc` at the faulting instruction. -/
theorem test_store_overrun :
    overrunAt 253#32 (fun t => t.pc == 256#32 && t.status == .faulted 253#32 && t.mem.readByte 253 == 0#8 &&
        t.ir == .holding (.instr (.storeWord 9 8 0#32)))
      (step (ready 0xAD090000 [(8, 253#32), (9, 1#32)] [])) = true := by decide
/-- V-LW-2: base from `next`, `rs` committed, `cur[rt]` unchanged. -/
theorem test_load_base_from_next :
    nextWith (fun t => t.next.read 10 == 0xDEADBEEF#32 && t.cur.read 8 == 0#32 && t.cur.read 10 == 0#32)
      (step (readyMem 0x8D0A0014 0x14#32 0xDEADBEEF#32 [(8, 0x10#32)] [])) = true := by decide
/-- V-LW-3: base and destination the same register. -/
theorem test_load_into_base :
    nextWith (fun t => t.next.read 9 == 0xDEADBEEF#32 && t.cur.read 9 == 0xDEADBEEF#32)
      (step (readyMem 0x8D290000 0x14#32 0xDEADBEEF#32 [(9, 0x14#32)] [(9, 0x14#32)])) = true := by decide
/-- V-UND-1. -/
theorem test_undefined_word :
    nextWith (fun t => t.cur.read 8 == 1#32 && t.pc == 260#32 && t.diag == some ⟨true, false⟩ && t.ir == .empty)
      (step (ready 0x0000003F [(8, 1#32), (9, 2#32)] [])) = true := by decide

/-! ## Launch and halt -/

/-- A launch of a program, nothing preset. -/
def launchOf (program : Option (List Word)) (terminalPc : Word) : LaunchInputs where
  program := program
  terminalPc := terminalPc
  cur := RegFile.zero
  data := Vector.replicate 256 0#8

/-- V-CYC-1: an empty program halts before any fetch. -/
theorem test_empty_program_halts :
    nextWith (fun s => nextWith (fun t => t.status == .halted && t.pc == 256#32) (step s))
      (launch (launchOf (some []) 256#32) State.reset) = true := by decide
/-- R233: word 0 of the program lies at 256, little-endian. -/
theorem test_launch_loads :
    nextWith (fun s => memRead s.mem 256#32 == .ok 0x0000003F#32 && s.pc == 256#32 && s.status == .running)
      (launch (launchOf (some [0x0000003F#32]) 260#32) State.reset) = true := by decide +kernel
/-- R232. -/
theorem test_launch_refused :
    refusedBy .terminalPcMismatch (launch (launchOf (some [0x0000003F#32]) 256#32) State.reset) = true ∧
      refusedBy .programUnreadable (launch (launchOf none 256#32) State.reset) = true ∧
      refusedBy .alreadyLaunched (launch (launchOf (some []) 256#32) (ready 0 [] [])) = true := by decide

/-! ## Witnesses: the hypotheses of the statements can be met -/

/-- DecodeOfEncodeReturnsTheInstruction, at both ends of the immediate's range. -/
theorem witness_wellFormed :
    (Instr.loadWord 10 8 0xFFFF8000#32).wellFormed = true ∧ (Instr.storeWord 31 0 0x00007FFF#32).wellFormed = true ∧
      (Instr.add 31 0 31).wellFormed = true := by decide

/-- EncodeOfDecodeReturnsTheWord, ImmediateIsTheSignExtendedField: an R-format word with bits 10:6 set, and an I-format
word of each kind. -/
theorem witness_decoded_words :
    decode 0x02108FE0#32 = .instr (.add 17 16 16) ∧ decode 0x8D0AFFFF#32 = .instr (.loadWord 10 8 0xFFFFFFFF#32) ∧
      decode 0xAD090001#32 = .instr (.storeWord 9 8 1#32) := by decide

/-- RFormatOperationSelect: each clause, and a function code next to two of them. -/
theorem witness_rFormat :
    (0x01095020#32 : Word).extractLsb 31 26 = 0 ∧ (8 : RegIdx).val = ((0x01095020#32 : Word).extractLsb 25 21).toNat ∧
      (9 : RegIdx).val = ((0x01095020#32 : Word).extractLsb 20 16).toNat ∧
      (10 : RegIdx).val = ((0x01095020#32 : Word).extractLsb 15 11).toNat ∧
      (0x01095020#32 : Word).extractLsb 5 0 = 32 ∧ (0x01095022#32 : Word).extractLsb 5 0 = 34 ∧
      (0x01095025#32 : Word).extractLsb 5 0 = 37 ∧ (0x01095021#32 : Word).extractLsb 5 0 = 33 := by decide

/-- IFormatOperationSelect: each clause, and an opcode next to one of them. -/
theorem witness_iFormat :
    (0x8D0A0004#32 : Word).extractLsb 31 26 = 35 ∧ (0xAD0A0004#32 : Word).extractLsb 31 26 = 43 ∧
      (0x890A0004#32 : Word).extractLsb 31 26 = 34 ∧ (8 : RegIdx).val = ((0x8D0A0004#32 : Word).extractLsb 25 21).toNat ∧
      (10 : RegIdx).val = ((0x8D0A0004#32 : Word).extractLsb 20 16).toNat := by decide

/-- BitsTenToSixAreIgnored. -/
theorem witness_bits_10_6 :
    (0x02108820#32 : Word).extractLsb 31 26 = 0 ∧
      (0x02108820#32 : Word) &&& 0xFFFFF83F#32 = (0x02108FE0#32 : Word) &&& 0xFFFFF83F#32 := by decide

/-- RegionLookup, MemReadAnswers, MemWriteAnswers: each clause at the ends of its range. -/
theorem witness_address_clauses :
    vmem.wf ∧ (255#32 : Word).toNat < 256 ∧ 256 ≤ (256#32 : Word).toNat ∧ (383#32 : Word).toNat < 384 ∧
      384 ≤ (384#32 : Word).toNat ∧ ¬ Overruns 252#32 ∧ Overruns 253#32 ∧ Overruns 255#32 ∧ ¬ Overruns 256#32 ∧
      ¬ Overruns 380#32 ∧ Overruns 381#32 ∧ Overruns 383#32 ∧ ¬ Overruns 384#32 := by decide

/-- MemoryRoundTrip: the last aligned word of region D, and an unaligned address. -/
theorem witness_roundTrip :
    vmem.wf ∧ (252#32 : Word).toNat < 384 ∧ (252#32 : Word).toNat % 4 = 0 ∧ (1#32 : Word).toNat % 4 ≠ 0 ∧
      ¬ Overruns 1#32 := by decide

/-- StoredWordIsFetched, StoreWordStores: a store into region I, one to an unmapped address. -/
theorem witness_store :
    (ready 0xAD090000 [(8, 260#32), (9, 0x3F#32)] []).mem.wf ∧
      nextWith (fun t => memRead t.mem 260#32 == .ok 0x3F#32)
        (exec (.storeWord 9 8 0#32) (ready 0xAD090000 [(8, 260#32), (9, 0x3F#32)] [])) = true ∧
      (storeAddress (ready 0xAD090000 [(8, 260#32)] []) 8 0#32).toNat < 384 ∧
      ¬ Overruns (storeAddress (ready 0xAD090000 [(8, 260#32)] []) 8 0#32) ∧
      384 ≤ (storeAddress (ready 0xAD090000 [(8, 0x180#32)] []) 8 0#32).toNat ∧
      ¬ Overruns (storeAddress (ready 0xAD090000 [(8, 0x180#32)] []) 8 0#32) := by decide

/-- LoadWordLoadsIntoNext. -/
theorem witness_load :
    ¬ Overruns (loadAddress (ready 0x8D0A0014 [] []) 8 0x14#32) ∧
      ¬ Overruns (loadAddress (ready 0x8D0A0000 [] [(8, 0x200#32)]) 8 0#32) := by decide

/-- OverrunFaultsPrecisely, OnlyOverrunningAccessesFault: a store at the last byte of region D. -/
theorem witness_overrun :
    Fetches (ready 0xAD090000 [(8, 255#32)] []) 0xAD090000#32 ∧
      decode 0xAD090000#32 = .instr (.storeWord 9 8 0#32) ∧
      accessAddress (ready 0xAD090000 [(8, 255#32)] []) (.storeWord 9 8 0#32) = some 255#32 ∧ Overruns 255#32 ∧
      (ready 0xAD090000 [(8, 255#32)] []).pc.toNat % 4 = 0 ∧
      overrunAt 255#32 (fun _ => true) (step (ready 0xAD090000 [(8, 255#32)] [])) = true := by
  unfold Fetches; decide

/-- The same statements for a load at the last byte of region I. -/
theorem witness_load_overrun :
    Fetches (ready 0x8D0A0000 [] [(8, 383#32)]) 0x8D0A0000#32 ∧
      decode 0x8D0A0000#32 = .instr (.loadWord 10 8 0#32) ∧
      accessAddress (ready 0x8D0A0000 [] [(8, 383#32)]) (.loadWord 10 8 0#32) = some 383#32 ∧ Overruns 383#32 := by
  unfold Fetches; decide

/-- A block whose `pc` has run past region I. -/
def pastRegions : State := { ready 0 [] [] with pc := 384#32, terminalPc := 388#32 }

/-- AlignedFetchNeverOverruns, UndefinedWordIsANoOp's clause about unmapped addresses. -/
theorem witness_pastRegions :
    pastRegions.status = .running ∧ pastRegions.pc ≠ pastRegions.terminalPc ∧ 384 ≤ pastRegions.pc.toNat ∧
      pastRegions.pc.toNat % 4 = 0 := by decide

/-- CommitCopiesOneRegister, RegistersChangeOnlyByTheirInstructions, SnapshotsPartOnlyByLoads,
StepRunsTheDecodedInstruction, EveryCycleAdvancesPcByFour, RecordReachesNoLaterCycle, DiagnosticsAreOutputsOnly,
StepsKeepTerminalPcAndStatus: an ADD that completes, changing its register in both snapshots and leaving another alike. -/
theorem witness_add_cycle :
    Fetches (ready 0x01095020 [(8, 3#32)] []) 0x01095020#32 ∧ decode 0x01095020#32 = .instr (.add 10 8 9) ∧
      nextWith (fun t => t.cur.read 10 != 0#32 && t.next.read 10 != 0#32) (step (ready 0x01095020 [(8, 3#32)] [])) =
        true ∧
      nextWith (fun t => t.cur.read 10 == 3#32) (exec (.add 10 8 9) (ready 0x01095020 [(8, 3#32)] [])) = true ∧
      (ready 0x01095020 [(8, 3#32)] []).cur.read 9 = (ready 0x01095020 [(8, 3#32)] []).next.read 9 := by
  unfold Fetches; decide

/-- SnapshotsPartOnlyByLoads: no load's word is the witness's. -/
theorem witness_add_is_no_load (rs : RegIdx) (imm : Word) :
    decode 0x01095020#32 ≠ .instr (.loadWord 9 rs imm) := by
  rw [show decode 0x01095020#32 = .instr (.add 10 8 9) by decide]; simp

/-- OnlyLoadWordReadsNext: a store that completes and one that faults. -/
theorem witness_not_load :
    nextWith (fun _ => true) (exec (.storeWord 9 8 0#32) (ready 0xAD090000 [(8, 16#32)] [])) = true ∧
      overrunAt 381#32 (fun _ => true) (exec (.storeWord 9 8 0#32) (ready 0xAD090000 [(8, 381#32)] [])) = true := by
  decide

/-- LoadedWordPassesThroughNext: the two loads of program P2. -/
theorem witness_two_loads :
    nextWith (fun t => nextWith (fun u => u.cur.read 10 == 0xDEADBEEF#32) (exec (.loadWord 11 10 0#32) t))
      (exec (.loadWord 10 8 0x14#32) (readyMem 0x8D0A0014 0x14#32 0xDEADBEEF#32 [(8, 0x10#32)] [])) = true := by decide

/-- OrLaws, ProgrammingIdioms. -/
theorem witness_idioms : (10 : RegIdx) ≠ 9 ∧ (ready 0x01095022 [(8, 0x1234#32)] []).cur.read 9 = 0#32 := by decide

/-- UndefinedWordIsANoOp: each clause, with the source's example and an opcode next to a recognised one. -/
theorem witness_undefined :
    Fetches (ready 0x0000003F [] []) 0x0000003F#32 ∧ Fetches (ready 0 [] []) 0#32 ∧
      Fetches (ready 0x88000000 [] []) 0x88000000#32 ∧
      ((0x0000003F#32 : Word).extractLsb 31 26 = 0 ∧ (0x0000003F#32 : Word).extractLsb 5 0 ≠ 32 ∧
        (0x0000003F#32 : Word).extractLsb 5 0 ≠ 34 ∧ (0x0000003F#32 : Word).extractLsb 5 0 ≠ 37) ∧
      ((0x88000000#32 : Word).extractLsb 31 26 ≠ 0 ∧ (0x88000000#32 : Word).extractLsb 31 26 ≠ 35 ∧
        (0x88000000#32 : Word).extractLsb 31 26 ≠ 43) := by
  unfold Fetches; decide

/-- HaltTestAndFinalStatus: each clause. -/
theorem witness_status :
    ({ pastRegions with pc := 388#32 } : State).pc = pastRegions.terminalPc ∧ pastRegions.status = .running ∧
      pastRegions.halt.status = .halted ∧ ({ pastRegions with status := .faulted 255#32 } : State).status = .faulted 255#32 ∧
      State.reset.status = .idle := by decide

/-- MemoryChangesOnlyByStores. -/
theorem witness_store_changes_memory :
    (ready 0xAD090000 [(8, 16#32), (9, 7#32)] []).mem.readByte 16 = 0#8 ∧
      nextWith (fun t => t.mem.readByte 16 == 7#8) (step (ready 0xAD090000 [(8, 16#32), (9, 7#32)] [])) = true := by decide

/-- EveryStepKeepsTheInvariant: a running state that meets the invariant and steps. -/
theorem witness_invariant : (ready 0x01095020 [(8, 3#32)] []).Inv :=
  ⟨by decide, by decide, by decide, rfl, by decide⟩

/-- LaunchStartsTheRun, EveryLaunchedRunEnds: a one-word program, and the launch that the statement speaks of. -/
theorem witness_launch :
    (launchOf (some [0x0000003F#32]) 260#32).program = some [0x0000003F#32] ∧
      (launchOf (some [0x0000003F#32]) 260#32).terminalPc.toNat = 256 + 4 * [0x0000003F#32].length ∧
      (launchOf (some [0x0000003F#32]) 260#32).terminalPc.toNat ≤ 2 ^ 32 - 4 ∧
      nextWith (fun s => s.status == .running) (launch (launchOf (some [0x0000003F#32]) 260#32) State.reset) = true := by
  decide

/-- Launch this program with everything else zero, then make this many steps. -/
def launchedRun (n : Nat) (program : List Word) (terminalPc : Word) : Result :=
  match launch (launchOf (some program) terminalPc) State.reset with
  | .next s => run n s
  | r => r

/-- EveryLaunchedRunEnds, halting (R130 (a)): one UNDEFINED word, halted after one cycle and the halt step. -/
theorem witness_launched_run_halts :
    nextWith (fun s => s.status == .halted && s.pc == 260#32) (launchedRun 2 [0x0000003F#32] 260#32) = true := by
  decide +kernel

/-- EveryLaunchedRunEnds, faulting (R130 (b)): an UNDEFINED word, then `lw $10, 253($0)`; cycle 0 completes, and cycle 1
overruns region D with pc at 256 + 4. -/
theorem witness_launched_run_faults :
    terminalPcAgrees 264#32 [0x0000003F#32, 0x8C0A00FD#32].length = true ∧
      nextWith (fun s => s.status == .running && s.pc == 260#32)
        (launchedRun 1 [0x0000003F#32, 0x8C0A00FD#32] 264#32) = true ∧
      overrunAt 253#32 (fun t => t.status == .faulted 253#32 && t.pc == 260#32)
        (launchedRun 2 [0x0000003F#32, 0x8C0A00FD#32] 264#32) = true := by decide +kernel

/-- LaunchIsRefusedWithoutItsPremises: each clause. -/
theorem witness_launch_refused :
    (launchOf none 256#32).program = none ∧ (launchOf (some [0#32]) 256#32).program = some [0#32] ∧
      (launchOf (some [0#32]) 256#32).terminalPc.toNat ≠ 256 + 4 * [0#32].length ∧
      2 ^ 32 - 4 < (launchOf (some [0#32]) 0xFFFFFFFF#32).terminalPc.toNat ∧ (ready 0 [] []).status ≠ .idle := by decide

/-- PlacedWordIsFetchedNext: from reset, and from a running block. -/
theorem witness_placed_word :
    State.reset.mem.wf ∧ Fetches (State.reset.withFetchWord 32 0x01095020) 0x01095020#32 ∧
      Fetches ((ready 0 [] []).withFetchWord 32 0x01095020) 0x01095020#32 := by
  unfold Fetches; decide

end Sys2Proof.Tests
end

section
/-! PROOFS. The region lookup (spec/20_memory.md R61, R62). -/

namespace Sys2Proof.Machine

theorem region_contains_iff (r : Region) (a : Nat) : r.contains a = true ↔ r.start ≤ a ∧ a < r.start + r.size := by
  simp [Region.contains]

theorem not_instrRegion_contains_of_dataRegion_contains {a : Nat} (h : Config.dataRegion.contains a = true) :
    ¬ Config.instrRegion.contains a = true := by
  simp only [region_contains_iff, Config.dataRegion, Config.instrRegion] at h ⊢
  omega

/-- The regions do not overlap (R61). -/
theorem regions_contain_at_most_once (a : Nat) : {r ∈ Config.regions | r.contains a}.Subsingleton := by
  rintro r ⟨hr, har⟩ q ⟨hq, haq⟩
  simp only [Config.regions, List.mem_cons, List.not_mem_nil, or_false] at hr hq
  obtain rfl | rfl := hr <;> obtain rfl | rfl := hq
  · rfl
  · exact absurd haq (not_instrRegion_contains_of_dataRegion_contains har)
  · exact absurd har (not_instrRegion_contains_of_dataRegion_contains haq)
  · rfl

/-- R62's derivation, for every order of the region list. -/
theorem find?_contains_eq_owner_of_perm {l : List Region} (h : Config.regions.Perm l) (a : Word) :
    l.find? (·.contains a.toNat) = owner a :=
  (List.find?_eq_find?_of_perm h (regions_contain_at_most_once a.toNat)).symm

/-- Settles O10: the three ranges are the lookup in numbers (`owner_eq`), and the reversed list is a permutation of
regions that do not overlap. -/
theorem regionLookup : Obligations.RegionLookup := by
  intro a
  refine ⟨fun hd => ?_, fun hd hi => ?_, fun hi => ?_, ?_⟩
  · rw [owner_eq, if_pos hd]; rfl
  · rw [owner_eq, if_neg (by omega), if_pos hi]; rfl
  · rw [owner_eq, if_neg (by omega), if_neg (by omega)]
  · exact find?_contains_eq_owner_of_perm (List.reverse_perm _).symm a

end Sys2Proof.Machine
end

section
/-! PROOFS. The decoder's cases, both ways between words and instructions, and the opcode map (spec/30_encoding.md R92
to R103). -/

namespace Sys2Proof
open Machine

/-! ## What the decoder answers, case by case (R96, R97, R99) -/

section Equations
variable {w : Word}

theorem decode_of_functAdd (ho : opcodeOf w = 0#6) (hf : functOf w = 32#6) :
    decode w = .instr (.add (rdOf w) (rsOf w) (rtOf w)) :=
  (if_pos ho).trans (if_pos hf)

theorem decode_of_functSub (ho : opcodeOf w = 0#6) (hf : functOf w = 34#6) :
    decode w = .instr (.sub (rdOf w) (rsOf w) (rtOf w)) :=
  (if_pos ho).trans ((if_neg (ne_of_eq_of_ne hf (by decide))).trans (if_pos hf))

theorem decode_of_functOr (ho : opcodeOf w = 0#6) (hf : functOf w = 37#6) :
    decode w = .instr (.or (rdOf w) (rsOf w) (rtOf w)) :=
  (if_pos ho).trans ((if_neg (ne_of_eq_of_ne hf (by decide))).trans
    ((if_neg (ne_of_eq_of_ne hf (by decide))).trans (if_pos hf)))

theorem decode_of_otherFunct (ho : opcodeOf w = 0#6) (ha : functOf w ≠ 32#6) (hs : functOf w ≠ 34#6)
    (hr : functOf w ≠ 37#6) : decode w = .undefined .unknownFunct :=
  (if_pos ho).trans ((if_neg ha).trans ((if_neg hs).trans (if_neg hr)))

theorem decode_of_opcodeLoadWord (ho : opcodeOf w = 35#6) :
    decode w = .instr (.loadWord (rtOf w) (rsOf w) (immOf w)) :=
  (if_neg (ne_of_eq_of_ne ho (by decide))).trans (if_pos ho)

theorem decode_of_opcodeStoreWord (ho : opcodeOf w = 43#6) :
    decode w = .instr (.storeWord (rtOf w) (rsOf w) (immOf w)) :=
  (if_neg (ne_of_eq_of_ne ho (by decide))).trans ((if_neg (ne_of_eq_of_ne ho (by decide))).trans (if_pos ho))

theorem decode_of_otherOpcode (hR : opcodeOf w ≠ 0#6) (hl : opcodeOf w ≠ 35#6) (hs : opcodeOf w ≠ 43#6) :
    decode w = .undefined .unknownOpcode :=
  (if_neg hR).trans ((if_neg hl).trans (if_neg hs))

end Equations

/-- `decode_cases` is exact: its cases say when a word decodes to an instruction. -/
theorem decode_eq_instr_iff {w : Word} {i : Instr} :
    decode w = .instr i ↔
      (opcodeOf w = 0#6 ∧ functOf w = 32#6 ∧ i = .add (rdOf w) (rsOf w) (rtOf w)) ∨
      (opcodeOf w = 0#6 ∧ functOf w = 34#6 ∧ i = .sub (rdOf w) (rsOf w) (rtOf w)) ∨
      (opcodeOf w = 0#6 ∧ functOf w = 37#6 ∧ i = .or (rdOf w) (rsOf w) (rtOf w)) ∨
      (opcodeOf w = 35#6 ∧ i = .loadWord (rtOf w) (rsOf w) (immOf w)) ∨
      (opcodeOf w = 43#6 ∧ i = .storeWord (rtOf w) (rsOf w) (immOf w)) := by
  refine ⟨decode_cases, ?_⟩
  rintro (⟨ho, hf, rfl⟩ | ⟨ho, hf, rfl⟩ | ⟨ho, hf, rfl⟩ | ⟨ho, rfl⟩ | ⟨ho, rfl⟩)
  · exact decode_of_functAdd ho hf
  · exact decode_of_functSub ho hf
  · exact decode_of_functOr ho hf
  · exact decode_of_opcodeLoadWord ho
  · exact decode_of_opcodeStoreWord ho

section Operands
variable {w : Word} {rd rs rt : RegIdx} {imm : Word}

theorem decode_eq_add_iff : decode w = .instr (.add rd rs rt) ↔
    opcodeOf w = 0#6 ∧ functOf w = 32#6 ∧ rd = rdOf w ∧ rs = rsOf w ∧ rt = rtOf w := by
  simp [decode_eq_instr_iff]

theorem decode_eq_sub_iff : decode w = .instr (.sub rd rs rt) ↔
    opcodeOf w = 0#6 ∧ functOf w = 34#6 ∧ rd = rdOf w ∧ rs = rsOf w ∧ rt = rtOf w := by
  simp [decode_eq_instr_iff]

theorem decode_eq_or_iff : decode w = .instr (.or rd rs rt) ↔
    opcodeOf w = 0#6 ∧ functOf w = 37#6 ∧ rd = rdOf w ∧ rs = rsOf w ∧ rt = rtOf w := by
  simp [decode_eq_instr_iff]

theorem decode_eq_loadWord_iff : decode w = .instr (.loadWord rt rs imm) ↔
    opcodeOf w = 35#6 ∧ rt = rtOf w ∧ rs = rsOf w ∧ imm = immOf w := by
  simp [decode_eq_instr_iff]

theorem decode_eq_storeWord_iff : decode w = .instr (.storeWord rt rs imm) ↔
    opcodeOf w = 43#6 ∧ rt = rtOf w ∧ rs = rsOf w ∧ imm = immOf w := by
  simp [decode_eq_instr_iff]

end Operands

/-! ## From an instruction to its word and back -/

/-- Every field that the decoder reads of an R-format word is the one encoded (R92). -/
theorem fields_of_encodeR (rs rt rd : RegIdx) (f : BitVec 6) :
    opcodeOf (encodeR rs rt rd f) = 0#6 ∧ functOf (encodeR rs rt rd f) = f ∧ rd = rdOf (encodeR rs rt rd f) ∧
      rs = rsOf (encodeR rs rt rd f) ∧ rt = rtOf (encodeR rs rt rd f) := by
  simp

/-- Every field of an I-format word is the one encoded, for an immediate in range (R93, R94). -/
theorem fields_of_encodeI (op : BitVec 6) (rs rt : RegIdx) {imm : Word} (h : immInRange imm = true) :
    opcodeOf (encodeI op rs rt imm) = op ∧ rt = rtOf (encodeI op rs rt imm) ∧ rs = rsOf (encodeI op rs rt imm) ∧
      imm = immOf (encodeI op rs rt imm) := by
  simp [signExtend_extractLsb'_of_immInRange h]

/-- Settles O1: the encoded word's fields are the instruction's operands, and an immediate in range survives the cut to
16 bits. -/
theorem decodeOfEncodeReturnsTheInstruction : Obligations.DecodeOfEncodeReturnsTheInstruction := by
  intro i hi
  cases i with
  | add rd rs rt => exact decode_eq_add_iff.mpr (fields_of_encodeR rs rt rd _)
  | sub rd rs rt => exact decode_eq_sub_iff.mpr (fields_of_encodeR rs rt rd _)
  | or rd rs rt => exact decode_eq_or_iff.mpr (fields_of_encodeR rs rt rd _)
  | loadWord rt rs imm => exact decode_eq_loadWord_iff.mpr (fields_of_encodeI _ rs rt hi)
  | storeWord rt rs imm => exact decode_eq_storeWord_iff.mpr (fields_of_encodeI _ rs rt hi)

/-! ## From a word to its instruction and back -/

/-- A mask that is all ones over a field keeps the field. -/
theorem extractLsb'_and_of_mask_allOnes (w : Word) {mask : Word} (start len : Nat)
    (h : mask.extractLsb' start len = BitVec.allOnes len) :
    (w &&& mask).extractLsb' start len = w.extractLsb' start len := by
  rw [BitVec.extractLsb'_and, h, BitVec.and_allOnes]

/-- An R-format word's fields make the word again, bits 10:6 cleared (R92, R98). -/
theorem encodeR_fields {w : Word} {f : BitVec 6} (ho : opcodeOf w = 0#6) (hf : functOf w = f) :
    encodeR (rsOf w) (rtOf w) (rdOf w) f = w &&& 0xFFFFF83F#32 := by
  have hop : w.extractLsb' 26 6 = 0#6 := ho
  have hsh : (w &&& 0xFFFFF83F#32).extractLsb' 6 5 = 0#5 := by
    rw [BitVec.extractLsb'_and]
    exact BitVec.and_zero
  rw [← append_fields_R (w &&& 0xFFFFF83F#32), hsh, extractLsb'_and_of_mask_allOnes w 26 6 rfl,
    extractLsb'_and_of_mask_allOnes w 21 5 rfl, extractLsb'_and_of_mask_allOnes w 16 5 rfl,
    extractLsb'_and_of_mask_allOnes w 11 5 rfl, extractLsb'_and_of_mask_allOnes w 0 6 rfl, hop, ← hf]
  rfl

/-- The low half of a sign-extended immediate is the field it came from. -/
theorem extractLsb'_immOf (w : Word) : (immOf w).extractLsb' 0 16 = w.extractLsb' 0 16 := by
  rw [immOf, BitVec.signExtend_eq_append_of_le (by decide)]
  exact BitVec.extractLsb'_append_eq_right

/-- An I-format word's fields make the word again (R93). -/
theorem encodeI_fields {w : Word} {op : BitVec 6} (ho : opcodeOf w = op) :
    encodeI op (rsOf w) (rtOf w) (immOf w) = w := by
  rw [← ho, encodeI, extractLsb'_immOf]
  exact append_fields_I w

/-- Settles O2: in each case of the decoder, the word's own fields encode to the word. -/
theorem encodeOfDecodeReturnsTheWord : Obligations.EncodeOfDecodeReturnsTheWord := by
  intro w i h
  obtain ⟨ho, hf, rfl⟩ | ⟨ho, hf, rfl⟩ | ⟨ho, hf, rfl⟩ | ⟨ho, rfl⟩ | ⟨ho, rfl⟩ := decode_cases h
  · exact ⟨rfl, (encodeR_fields ho hf).trans (if_pos ho).symm⟩
  · exact ⟨rfl, (encodeR_fields ho hf).trans (if_pos ho).symm⟩
  · exact ⟨rfl, (encodeR_fields ho hf).trans (if_pos ho).symm⟩
  · exact ⟨immInRange_signExtend _, (encodeI_fields ho).trans (if_neg (ne_of_eq_of_ne ho (by decide))).symm⟩
  · exact ⟨immInRange_signExtend _, (encodeI_fields ho).trans (if_neg (ne_of_eq_of_ne ho (by decide))).symm⟩

/-! ## The opcode map (R102) -/

section Map
variable (w : Word)

theorem decodes_to_add_iff :
    (∃ rd rs rt, decode w = .instr (.add rd rs rt)) ↔ w &&& 0xFC00003F#32 = 0x00000020#32 := by
  calc
    _ ↔ opcodeOf w = 0#6 ∧ functOf w = 32#6 := by simp [decode_eq_add_iff]
    _ ↔ _ := (and_maskR_eq_iff w (p := 0x00000020#32) (by decide)).symm

theorem decodes_to_sub_iff :
    (∃ rd rs rt, decode w = .instr (.sub rd rs rt)) ↔ w &&& 0xFC00003F#32 = 0x00000022#32 := by
  calc
    _ ↔ opcodeOf w = 0#6 ∧ functOf w = 34#6 := by simp [decode_eq_sub_iff]
    _ ↔ _ := (and_maskR_eq_iff w (p := 0x00000022#32) (by decide)).symm

theorem decodes_to_or_iff :
    (∃ rd rs rt, decode w = .instr (.or rd rs rt)) ↔ w &&& 0xFC00003F#32 = 0x00000025#32 := by
  calc
    _ ↔ opcodeOf w = 0#6 ∧ functOf w = 37#6 := by simp [decode_eq_or_iff]
    _ ↔ _ := (and_maskR_eq_iff w (p := 0x00000025#32) (by decide)).symm

theorem decodes_to_loadWord_iff :
    (∃ rt rs imm, decode w = .instr (.loadWord rt rs imm)) ↔ w &&& 0xFC000000#32 = 0x8C000000#32 := by
  calc
    _ ↔ opcodeOf w = 35#6 := by simp [decode_eq_loadWord_iff]
    _ ↔ _ := (and_maskI_eq_iff w (p := 0x8C000000#32) (by decide)).symm

theorem decodes_to_storeWord_iff :
    (∃ rt rs imm, decode w = .instr (.storeWord rt rs imm)) ↔ w &&& 0xFC000000#32 = 0xAC000000#32 := by
  calc
    _ ↔ opcodeOf w = 43#6 := by simp [decode_eq_storeWord_iff]
    _ ↔ _ := (and_maskI_eq_iff w (p := 0xAC000000#32) (by decide)).symm

end Map

/-- A record is UNDEFINED exactly when it holds none of the five operations. -/
theorem Decoded.undefined_iff (d : Decoded) :
    (∃ why, d = .undefined why) ↔
      ¬ ((∃ rd rs rt, d = .instr (.add rd rs rt)) ∨ (∃ rd rs rt, d = .instr (.sub rd rs rt)) ∨
        (∃ rd rs rt, d = .instr (.or rd rs rt)) ∨ (∃ rt rs imm, d = .instr (.loadWord rt rs imm)) ∨
        (∃ rt rs imm, d = .instr (.storeWord rt rs imm))) := by
  cases d with
  | undefined why => simp
  | instr i => cases i <;> simp

/-- Settles O3: the masks test the fields that the decoder tests, and a record without one of the five operations is
UNDEFINED. -/
theorem opcodeMapIsExact : Obligations.OpcodeMapIsExact := by
  intro w
  refine ⟨decodes_to_add_iff w, decodes_to_sub_iff w, decodes_to_or_iff w, decodes_to_loadWord_iff w,
    decodes_to_storeWord_iff w, ?_⟩
  rw [Decoded.undefined_iff, decodes_to_add_iff, decodes_to_sub_iff, decodes_to_or_iff, decodes_to_loadWord_iff,
    decodes_to_storeWord_iff]

/-! ## Operation select (R96, R97, R99) -/

/-- Settles O4: the operands are the decoder's own fields, and each clause is one of its cases. -/
theorem rFormatOperationSelect : Obligations.RFormatOperationSelect := by
  intro w ho rs rt rd hrs hrt hrd
  obtain rfl : rs = rsOf w := Fin.ext hrs
  obtain rfl : rt = rtOf w := Fin.ext hrt
  obtain rfl : rd = rdOf w := Fin.ext hrd
  refine ⟨decode_of_functAdd ho, decode_of_functSub ho, decode_of_functOr ho, fun ha hs hr => ?_⟩
  have h := decode_of_otherFunct ho ha hs hr
  exact ⟨_, h, by rw [h]; rfl⟩

/-- Only an R-format word raises the window diagnostic (R100; D10). -/
theorem regwin_decode_of_opcode_ne_zero {w : Word} (ho : opcodeOf w ≠ 0#6) :
    (diagnostics (decode w)).regwin = false := by
  cases h : decode w with
  | undefined why => rfl
  | instr i =>
    obtain ⟨ho', -⟩ | ⟨ho', -⟩ | ⟨ho', -⟩ | ⟨-, rfl⟩ | ⟨-, rfl⟩ := decode_cases h
    · exact absurd ho' ho
    · exact absurd ho' ho
    · exact absurd ho' ho
    · rfl
    · rfl

/-- Settles O5: each clause is a case of the decoder, and the window check stands on the R-format path only. -/
theorem iFormatOperationSelect : Obligations.IFormatOperationSelect := by
  intro w ho rs rt hrs hrt
  obtain rfl : rs = rsOf w := Fin.ext hrs
  obtain rfl : rt = rtOf w := Fin.ext hrt
  refine ⟨decode_of_opcodeLoadWord, decode_of_opcodeStoreWord, fun hl hs => ?_, regwin_decode_of_opcode_ne_zero ho⟩
  have h := decode_of_otherOpcode ho hl hs
  exact ⟨_, h, by rw [h]; rfl⟩

/-! ## Immediates and register operands (R94) -/

theorem immInRange_iff (imm : Word) : immInRange imm = true ↔ -32768 ≤ imm.toInt ∧ imm.toInt ≤ 32767 := by
  simp [immInRange]

/-- `sext_32` as R8 defines it. -/
theorem toNat_immOf (w : Word) :
    (immOf w).toNat = if (w.extractLsb 15 0).toNat < 2 ^ 15 then (w.extractLsb 15 0).toNat
      else (w.extractLsb 15 0).toNat + 0xFFFF0000 := by
  change ((w.extractLsb 15 0).signExtend 32).toNat = _
  have := (w.extractLsb 15 0).isLt
  rw [BitVec.toNat_signExtend, BitVec.toNat_setWidth, BitVec.msb_eq_decide]
  simp only [decide_eq_true_eq]
  split <;> split <;> omega

theorem toInt_immOf_of_field_eq {w : Word} {x : BitVec 16} (h : w.extractLsb 15 0 = x) :
    (immOf w).toInt = x.toInt :=
  h ▸ BitVec.toInt_signExtend_of_le (by decide)

theorem operands_of_decode_I {w imm : Word} {rt rs : RegIdx}
    (h : decode w = .instr (.loadWord rt rs imm) ∨ decode w = .instr (.storeWord rt rs imm)) :
    rt = rtOf w ∧ rs = rsOf w ∧ imm = immOf w := by
  obtain h | h := h
  · exact (decode_eq_loadWord_iff.mp h).2
  · exact (decode_eq_storeWord_iff.mp h).2

theorem operands_of_decode_R {w : Word} {rd rs rt : RegIdx}
    (h : decode w = .instr (.add rd rs rt) ∨ decode w = .instr (.sub rd rs rt) ∨ decode w = .instr (.or rd rs rt)) :
    rd = rdOf w ∧ rs = rsOf w ∧ rt = rtOf w := by
  obtain h | h | h := h
  · exact (decode_eq_add_iff.mp h).2.2
  · exact (decode_eq_sub_iff.mp h).2.2
  · exact (decode_eq_or_iff.mp h).2.2

/-- Settles O6: the decoded operands are the word's fields, the immediate is in range, and a load takes its base from
`next`, a store from `cur`. -/
theorem immediateIsTheSignExtendedField : Obligations.ImmediateIsTheSignExtendedField := by
  refine ⟨fun w imm rt rs h => ?_, fun w rd rs rt h => ?_, fun s rt rs imm => ?_⟩
  · obtain ⟨rfl, rfl, rfl⟩ := operands_of_decode_I h
    obtain ⟨hlo, hhi⟩ := (immInRange_iff _).mp (immInRange_signExtend (w.extractLsb' 0 16))
    exact ⟨toNat_immOf w, hlo, hhi, toInt_immOf_of_field_eq, toInt_immOf_of_field_eq, rfl, rfl⟩
  · obtain ⟨rfl, rfl, rfl⟩ := operands_of_decode_R h
    exact ⟨rfl, rfl, rfl⟩
  · exact ⟨⟨s.next, by simp, rfl⟩, ⟨s.cur, by simp, rfl⟩⟩

/-- Settles O9: each word's opcode and function code select its case. -/
theorem writtenOutWordsDecode : Obligations.WrittenOutWordsDecode :=
  ⟨decode_of_functAdd rfl rfl, decode_of_functSub rfl rfl, decode_of_functOr rfl rfl, decode_of_opcodeLoadWord rfl,
    decode_of_opcodeStoreWord rfl, decode_of_otherFunct rfl (by decide) (by decide) (by decide),
    decode_of_otherOpcode (by decide) (by decide) (by decide)⟩

end Sys2Proof
end

section
/-! PROOFS. No step is refused (spec/30_encoding.md R103, 60_exceptions.md R200). -/

namespace Sys2Proof.Machine

/-- An access goes on or faults: it refuses only if what follows it does. -/
theorem withAccess_ne_refused {α : Type} {s : State} {acc : Except RegionOverrun α} {k : α → Result} {r : Refusal}
    (hk : ∀ v, k v ≠ .refused r) : withAccess s acc k ≠ .refused r := by
  cases acc with
  | ok v => exact hk v
  | error e => exact nofun

/-- Every recognised instruction has its meaning. -/
theorem exec_ne_refused (i : Instr) (s : State) (r : Refusal) : exec i s ≠ .refused r := by
  cases i with
  | add rd rs rt => exact nofun
  | sub rd rs rt => exact nofun
  | or rd rs rt => exact nofun
  | loadWord rt rs imm => exact withAccess_ne_refused nofun
  | storeWord rt rs imm => exact withAccess_ne_refused nofun

theorem runDecoded_ne_refused (d : Decoded) (s : State) (r : Refusal) : runDecoded d s ≠ .refused r := by
  cases d with
  | instr i => exact exec_ne_refused i s r
  | undefined why => exact nofun

theorem finish_ne_refused {x : Result} {r : Refusal} (h : x ≠ .refused r) : finish x ≠ .refused r := by
  cases x with
  | next s => exact nofun
  | fault f => exact nofun
  | refused q => exact h

theorem cycle_ne_refused (s : State) (r : Refusal) : cycle s ≠ .refused r :=
  withAccess_ne_refused fun _ => finish_ne_refused (runDecoded_ne_refused _ _ r)

/-- Settles O24: a step idles, halts or runs a cycle, and no cycle is refused. -/
theorem noStepIsRefused : Obligations.NoStepIsRefused := by
  intro s r
  unfold step runStep
  split
  · split
    · exact nofun
    · exact cycle_ne_refused s r
  · exact nofun

end Sys2Proof.Machine
end

section
/-! PROOFS. COMMIT, the cycle of an UNDEFINED word, and the record between cycles (spec/40_execution_cycle.md R125, R127,
R128). -/

namespace Sys2Proof.Machine

/-! ## COMMIT (R125) -/

theorem State.commit_copies (s : State) (r : RegIdx) :
    (s.commit r).cur.read r = (s.commit r).next.read r ∧ SameRegistersBut r s.cur (s.commit r).cur :=
  ⟨RegFile.read_write_same _ _ _, fun _ hq => RegFile.read_write_ne _ _ hq⟩

/-- An instruction with a commit ends in it, and its EXECUTE leaves `cur` alone. -/
theorem exec_ends_in_commit {i : Instr} {s t : State} {r : RegIdx} (h : exec i s = .next t)
    (hr : commitTarget i = some r) : ∃ u : State, u.cur = s.cur ∧ t = u.commit r := by
  obtain ⟨rd, v, -, hc, -, rfl⟩ | ⟨rt, rs, imm, v, rfl, -, rfl⟩ | ⟨rt, rs, imm, m, rfl, -, -⟩ := exec_next_cases h
  · obtain rfl : rd = r := Option.some.inj (hc.symm.trans hr)
    exact ⟨s.setNext rd v, rfl, rfl⟩
  · obtain rfl : rs = r := Option.some.inj hr
    exact ⟨s.setNext rt v, rfl, rfl⟩
  · cases hr

theorem exec_commits {i : Instr} {s t : State} {r : RegIdx} (h : exec i s = .next t) (hr : commitTarget i = some r) :
    t.cur.read r = t.next.read r ∧ SameRegistersBut r s.cur t.cur := by
  obtain ⟨u, hu, rfl⟩ := exec_ends_in_commit h hr
  exact hu ▸ u.commit_copies r

theorem exec_keeps_cur_of_no_commit {i : Instr} {s t : State} (h : exec i s = .next t) (hr : commitTarget i = none) :
    t.cur = s.cur := by
  obtain ⟨rd, v, -, hc, -, -⟩ | ⟨rt, rs, imm, v, rfl, -, -⟩ | ⟨rt, rs, imm, m, -, -, rfl⟩ := exec_next_cases h
  · cases hc.symm.trans hr
  · cases hr
  · rfl

/-- Settles O25: each clause is one value of `commitTarget`, and an UNDEFINED record runs nothing. -/
theorem commitCopiesOneRegister : Obligations.CommitCopiesOneRegister := by
  refine ⟨fun i s t h => ?_, fun why s t h => ?_⟩
  · cases i with
    | add rd rs rt => exact exec_commits h rfl
    | sub rd rs rt => exact exec_commits h rfl
    | or rd rs rt => exact exec_commits h rfl
    | loadWord rt rs imm => exact exec_commits h rfl
    | storeWord rt rs imm => exact exec_keeps_cur_of_no_commit h rfl
  · obtain ⟨i, hd, -⟩ | ⟨-, -, rfl⟩ := runDecoded_next_cases h
    · cases hd
    · rfl

/-! ## The cycle of an UNDEFINED word (R128) -/

/-- What R97 and R99 leave to UNDEFINED. -/
theorem decode_undefined_of_fields {w : Word}
    (h : opcodeOf w = 0#6 ∧ functOf w ≠ 32#6 ∧ functOf w ≠ 34#6 ∧ functOf w ≠ 37#6 ∨
      opcodeOf w ≠ 0#6 ∧ opcodeOf w ≠ 35#6 ∧ opcodeOf w ≠ 43#6) : ∃ why, decode w = .undefined why := by
  obtain ⟨ho, ha, hs, hr⟩ | ⟨ho, hl, hs⟩ := h
  · exact ⟨_, decode_of_otherFunct ho ha hs hr⟩
  · exact ⟨_, decode_of_otherOpcode ho hl hs⟩

theorem step_of_undefined {s : State} {w : Word} (h : Fetches s w) (hd : ∃ why, decode w = .undefined why) :
    step s = .next { s with pc := s.pc + 4#32, ir := .empty, diag := some ⟨true, false⟩ } := by
  obtain ⟨why, hd⟩ := hd
  rw [step_of_fetches h, hd]
  rfl

/-- The two words that R128 names have opcode 0 and no operation's function code. -/
theorem decode_undefined_of_example {w : Word} (h : w = 0x0000003F#32 ∨ w = 0#32) :
    ∃ why, decode w = .undefined why := by
  obtain rfl | rfl := h
  · exact decode_undefined_of_fields (.inl (by decide))
  · exact decode_undefined_of_fields (.inl (by decide))

theorem fetch_of_unmapped {s : State} (h : 384 ≤ s.pc.toNat) : fetch s = .ok 0#32 :=
  (memRead_eq s.mem s.pc).trans (if_pos h)

/-- Settles O32: such a word decodes to UNDEFINED, whose run changes nothing; an unmapped fetch gives the all-zero
word. -/
theorem undefinedWordIsANoOp : Obligations.UndefinedWordIsANoOp :=
  ⟨fun _ _ hf h => step_of_undefined hf (decode_undefined_of_fields h),
    fun _ _ hf h => step_of_undefined hf (decode_undefined_of_example h),
    fun _ hr hp h => step_of_undefined ⟨hr, hp, fetch_of_unmapped h⟩ (decode_undefined_of_example (.inr rfl))⟩

/-! ## The record between cycles (R127) -/

theorem finish_next {x : Result} {t : State} (h : finish x = .next t) : ∃ u, x = .next u ∧ t = u.finishCycle := by
  cases x with
  | next u => cases h; exact ⟨u, rfl, rfl⟩
  | fault f => cases h
  | refused r => cases h

theorem fetches_with_ir {s : State} {w : Word} (h : Fetches s w) (ir : InstrRecord) :
    Fetches { s with ir := ir } w := h

/-- DECODE overwrites the whole record. -/
theorem State.latch_with_ir (s : State) (ir : InstrRecord) (d : Decoded) :
    { s with ir := ir }.latch d = s.latch d := rfl

/-- Settles O34: the end of a completed cycle empties the record, and DECODE overwrites it before EXECUTE dispatches
on it. -/
theorem recordReachesNoLaterCycle : Obligations.RecordReachesNoLaterCycle := by
  intro s w h
  refine ⟨fun t ht => ?_, fun ir => ?_⟩
  · rw [step_of_fetches h] at ht
    obtain ⟨u, -, rfl⟩ := finish_next ht
    exact u.finishCycle_ir
  · rw [step_of_fetches (fetches_with_ir h ir), State.latch_with_ir, step_of_fetches h]

end Sys2Proof.Machine
end

section
/-! PROOFS. What a register result leaves unchanged, and OR (spec/41_arith_logic.md R143). -/

namespace Sys2Proof.Machine

/-! ## Register results -/

theorem RegFile.sameRegistersBut_write (f : RegFile) (r : RegIdx) (v : Word) : SameRegistersBut r f (f.write r v) :=
  fun _ hq => f.read_write_ne v hq

section WriteResult
variable (s : State) (r : RegIdx) (v : Word)

@[simp] theorem State.read_writeResult_cur : (s.writeResult r v).cur.read r = v := by
  rw [State.writeResult_cur, RegFile.read_write_same]

@[simp] theorem State.read_writeResult_next : (s.writeResult r v).next.read r = v := by
  rw [State.writeResult_next, RegFile.read_write_same]

/-- The frame of a register result: one register of each snapshot, and nothing else. -/
theorem State.writeResult_frame :
    SameRegistersBut r s.cur (s.writeResult r v).cur ∧ SameRegistersBut r s.next (s.writeResult r v).next ∧
      SameControl s (s.writeResult r v) ∧ SameMemory s (s.writeResult r v) := by
  rw [State.writeResult_eq]
  exact ⟨s.cur.sameRegistersBut_write r v, s.next.sameRegistersBut_write r v, ⟨rfl, rfl, rfl, rfl, rfl⟩, fun _ => rfl⟩

end WriteResult

/-! ## OR -/

theorem exec_or (rd rs rt : RegIdx) (s : State) :
    exec (.or rd rs rt) s = .next (s.writeResult rd (s.cur.read rs ||| s.cur.read rt)) := rfl

/-- The window test of an OR record as the spec words it, one register outside [8,23] (30_encoding.md R100). -/
theorem regwin_or (rd rs rt : RegIdx) :
    regwin (.or rd rs rt) = decide (∃ r ∈ [rs, rt, rd], r.val < 8 ∨ 23 < r.val) := by
  rw [Bool.eq_iff_iff, decide_eq_true_iff]
  calc
    _ ↔ (rs.val < 8 ∨ 23 < rs.val) ∨ (rt.val < 8 ∨ 23 < rt.val) ∨ (rd.val < 8 ∨ 23 < rd.val) :=
      not_allInWindow_iff rd rs rt
    _ ↔ _ := by simp only [List.exists_mem_cons_iff, List.not_mem_nil, false_and, exists_false, or_false]

/-- Settles O17: OR's words are the opcode map's, its run is one register result, and its diagnostic is the window
test. -/
theorem orOfTheSources : Obligations.OrOfTheSources := by
  refine ⟨fun w => (decodes_to_or_iff w).mpr, fun rd rs rt s => ⟨_, exec_or rd rs rt s, fun k _ => ?_, ?_, ?_⟩,
    fun rd rs rt => congrArg (Diagnostics.mk false) (regwin_or rd rs rt)⟩
  · rw [State.read_writeResult_cur, BitVec.getLsbD_or]
  · rw [State.read_writeResult_next, State.read_writeResult_cur]
  · exact s.writeResult_frame rd _

end Sys2Proof.Machine
end

section
/-! PROOFS. Completed cycles and the invariant: what every cycle does to `pc`, TERMINAL_PC, the record, the status and the
diagnostics, whatever its word (spec/10_state.md R36 to R43, 40_execution_cycle.md R126, R130). -/

namespace Sys2Proof.Machine

/-! ## Completed cycles -/

theorem runDecoded_sameControl {d : Decoded} {s t : State} (h : runDecoded d s = .next t) : SameControl s t := by
  obtain ⟨i, -, hi⟩ | ⟨-, -, rfl⟩ := runDecoded_next_cases h
  · exact exec_sameControl hi
  · exact ⟨rfl, rfl, rfl, rfl, rfl⟩

theorem runDecoded_wf {d : Decoded} {s t : State} (hm : s.mem.wf) (h : runDecoded d s = .next t) : t.mem.wf := by
  obtain ⟨i, -, hi⟩ | ⟨-, -, rfl⟩ := runDecoded_next_cases h
  · exact exec_wf hm hi
  · exact hm

/-- What a completed cycle does to the control state, from the record's run. -/
theorem finishCycle_control {d : Decoded} {s u : State} (h : runDecoded d (s.latch d) = .next u) :
    u.finishCycle.pc = s.pc + 4#32 ∧ u.finishCycle.terminalPc = s.terminalPc ∧ u.finishCycle.status = s.status ∧
      u.finishCycle.diag = some (diagnostics d) := by
  obtain ⟨hpc, hterm, -, hstatus, hdiag⟩ := runDecoded_sameControl h
  exact ⟨congrArg (· + 4#32) hpc, hterm, hstatus, hdiag⟩

/-- The same of a step that fetches. -/
theorem step_next_control {s t : State} {w : Word} (h : Fetches s w) (ht : step s = .next t) :
    t.pc = s.pc + 4#32 ∧ t.terminalPc = s.terminalPc ∧ t.status = s.status ∧
      t.diag = some (diagnostics (decode w)) := by
  rw [step_of_fetches h] at ht
  obtain ⟨u, hu, rfl⟩ := finish_next ht
  exact finishCycle_control hu

/-- A step that fetches a recognised word is `exec` on the latched state, finished. -/
theorem step_of_fetches_instr {s : State} {w : Word} {i : Instr} (h : Fetches s w) (hd : decode w = .instr i) :
    step s = finish (exec i (s.latch (.instr i))) := by
  rw [step_of_fetches h, hd]
  rfl

/-! ## The invariant -/

theorem toNat_add_four_mod_four {p : Word} (h : p.toNat % 4 = 0) : (p + 4#32).toNat % 4 = 0 := by
  simp only [BitVec.toNat_add, BitVec.toNat_ofNat]
  omega

/-- Between aligned addresses the PC advances without wrapping around. -/
theorem toNat_add_four_of_lt {p q : Word} (hp : p.toNat % 4 = 0) (hq : q.toNat % 4 = 0) (h : p.toNat < q.toNat) :
    (p + 4#32).toNat = p.toNat + 4 := by
  have := q.isLt
  simp only [BitVec.toNat_add, BitVec.toNat_ofNat]
  omega

/-- A running block that meets the invariant and is not at its terminal PC is a word or more before it. -/
theorem State.Inv.pc_lt {s : State} (hs : s.Inv) (hr : s.status = .running) (hp : s.pc ≠ s.terminalPc) :
    s.pc.toNat < s.terminalPc.toNat :=
  lt_of_le_of_ne (hs.notPast hr) fun h => hp (BitVec.eq_of_toNat_eq h)

theorem State.Inv.toNat_pc_add_four {s : State} (hs : s.Inv) (hr : s.status = .running) (hp : s.pc ≠ s.terminalPc) :
    (s.pc + 4#32).toNat = s.pc.toNat + 4 :=
  toNat_add_four_of_lt hs.pcAligned hs.terminalAligned (hs.pc_lt hr hp)

theorem State.Inv.halt {s : State} (hs : s.Inv) : s.halt.Inv :=
  ⟨hs.memWf, hs.pcAligned, hs.terminalAligned, hs.recordEmpty, nofun⟩

/-- A completed cycle keeps the invariant: both PCs are multiples of 4, so an advance by 4 does not jump over the terminal
one. -/
theorem State.Inv.finishCycle {s u : State} {w : Word} (hs : s.Inv) (hf : Fetches s w)
    (hu : runDecoded (decode w) (s.latch (decode w)) = .next u) : u.finishCycle.Inv := by
  obtain ⟨hr, hp, -⟩ := hf
  obtain ⟨hpc, hterm, -, -⟩ := finishCycle_control hu
  have hlt := hs.pc_lt hr hp
  have hadv := hs.toNat_pc_add_four hr hp
  have hpa := hs.pcAligned
  have hta := hs.terminalAligned
  have hwf : u.mem.wf := runDecoded_wf (s := s.latch (decode w)) hs.memWf hu
  refine ⟨hwf, hpc ▸ toNat_add_four_mod_four hpa, hterm ▸ hta, rfl, fun _ => ?_⟩
  rw [hpc, hterm]
  omega

/-- Settles O41: a step waits, halts or completes a cycle, and each keeps the invariant. -/
theorem everyStepKeepsTheInvariant : Obligations.EveryStepKeepsTheInvariant := by
  intro s t hs h
  obtain ⟨-, rfl⟩ | ⟨-, -, rfl⟩ | ⟨w, u, hf, hu, rfl⟩ := step_next_cases h
  · exact hs
  · exact hs.halt
  · exact hs.finishCycle hf hu

/-! ## PC advance, diagnostics, TERMINAL_PC and status -/

/-- Settles O33: the advance is modular addition, whatever the word. -/
theorem everyCycleAdvancesPcByFour : Obligations.EveryCycleAdvancesPcByFour := by
  intro s t w hf h
  obtain ⟨hpc, -, -, -⟩ := step_next_control hf h
  rw [hpc, BitVec.toNat_add, BitVec.toNat_ofNat]

theorem fetches_with_diag {s : State} {w : Word} (h : Fetches s w) (d : Option Diagnostics) :
    Fetches { s with diag := d } w := h

/-- DECODE overwrites the diagnostic outputs. -/
theorem State.latch_with_diag (s : State) (o : Option Diagnostics) (d : Decoded) :
    { s with diag := o }.latch d = s.latch d := rfl

/-- Settles O35: no instruction changes the outputs that DECODE drives, and DECODE overwrites the earlier ones. -/
theorem diagnosticsAreOutputsOnly : Obligations.DiagnosticsAreOutputsOnly := by
  intro s w hf
  refine ⟨fun t h => ?_, fun d => ?_⟩
  · obtain ⟨-, -, -, hdiag⟩ := step_next_control hf h
    exact hdiag
  · rw [step_of_fetches (fetches_with_diag hf d), State.latch_with_diag, step_of_fetches hf]

theorem step_of_not_running {s : State} (h : s.status ≠ .running) : step s = .next s := if_neg h

theorem step_at_terminalPc {s : State} (hr : s.status = .running) (hp : s.pc = s.terminalPc) : step s = .next s.halt :=
  (if_pos hr).trans (if_pos hp)

/-- Settles O36: the halt test comes first, and only a running block does anything. -/
theorem haltTestAndFinalStatus : Obligations.HaltTestAndFinalStatus :=
  ⟨fun _ hr hp => step_at_terminalPc hr hp, fun _ h => step_of_not_running (by simp [h]),
    fun _ _ h => step_of_not_running (by simp [h]), fun _ h => step_of_not_running (by simp [h])⟩

/-- Settles O37: a step waits, halts or completes a cycle, and a cycle leaves TERMINAL_PC and the status. -/
theorem stepsKeepTerminalPcAndStatus : Obligations.StepsKeepTerminalPcAndStatus := by
  intro s t h
  obtain ⟨hn, rfl⟩ | ⟨hr, hp, rfl⟩ | ⟨w, u, ⟨hr, hp, -⟩, hu, rfl⟩ := step_next_cases h
  · exact ⟨rfl, .inl rfl, fun hr => absurd hr hn⟩
  · exact ⟨rfl, .inr ⟨hr, hp, rfl⟩, fun _ => iff_of_true rfl hp⟩
  · obtain ⟨-, hterm, hstatus, -⟩ := finishCycle_control hu
    exact ⟨hterm, .inl hstatus, fun _ => iff_of_false (by rw [hstatus, hr]; exact nofun) hp⟩

/-- Settles O31: EXECUTE dispatches on the latched record, and the end of the cycle is the PC advance and the empty
record. -/
theorem stepRunsTheDecodedInstruction : Obligations.StepRunsTheDecodedInstruction := by
  intro s w i hf hd
  have hstep := step_of_fetches_instr hf hd
  exact ⟨fun t ht => hstep.trans (congrArg finish ht), fun f hfault => hstep.trans (congrArg finish hfault)⟩

end Sys2Proof.Machine
end

section
/-! PROOFS. What the decoder ignores, and the window diagnostic (spec/30_encoding.md R98, R100; 60_exceptions.md R204). -/

namespace Sys2Proof
open Machine

/-! ## Bits 10:6 (R98) -/

/-- The R-format decoder reads four fields and no other bit. -/
theorem decodeR_eq_of_fields {v w : Word} (hrs : rsOf v = rsOf w) (hrt : rtOf v = rtOf w) (hrd : rdOf v = rdOf w)
    (hf : functOf v = functOf w) : decodeR v = decodeR w := by
  simp only [decodeR, hrs, hrt, hrd, hf]

/-- Words that agree under a mask agree in every field over which the mask is all ones. -/
theorem extractLsb'_eq_of_and_eq {v w mask : Word} (h : v &&& mask = w &&& mask) (start len : Nat)
    (hm : mask.extractLsb' start len = BitVec.allOnes len) : v.extractLsb' start len = w.extractLsb' start len := by
  rw [← extractLsb'_and_of_mask_allOnes v start len hm, h, extractLsb'_and_of_mask_allOnes w start len hm]

/-- Settles O7: the mask is all ones over the opcode and over the four fields that the R-format decoder reads. -/
theorem bitsTenToSixAreIgnored : Obligations.BitsTenToSixAreIgnored := by
  intro v w hw h
  have hop : opcodeOf v = opcodeOf w := extractLsb'_eq_of_and_eq h 26 6 rfl
  have hrs : rsOf v = rsOf w := congrArg BitVec.toFin (extractLsb'_eq_of_and_eq h 21 5 rfl)
  have hrt : rtOf v = rtOf w := congrArg BitVec.toFin (extractLsb'_eq_of_and_eq h 16 5 rfl)
  have hrd : rdOf v = rdOf w := congrArg BitVec.toFin (extractLsb'_eq_of_and_eq h 11 5 rfl)
  have hf : functOf v = functOf w := extractLsb'_eq_of_and_eq h 0 6 rfl
  calc
    decode v = decodeR v := if_pos (hop.trans hw)
    _ = decodeR w := decodeR_eq_of_fields hrs hrt hrd hf
    _ = decode w := (if_pos hw).symm

/-! ## The window diagnostic (R100, R204) -/

/-- The window test as the spec words it, one register outside [8,23]. -/
theorem not_allInWindow_iff_exists (rd rs rt : RegIdx) :
    (!allInWindow rd rs rt) = true ↔ ∃ r ∈ [rs, rt, rd], r.val < 8 ∨ 23 < r.val :=
  (Bool.eq_iff_iff.mp (regwin_or rd rs rt)).trans decide_eq_true_iff

/-- Only a record of ADD, SUB or OR raises the window diagnostic, and it does by the window test. -/
theorem regwin_diagnostics_iff (d : Decoded) :
    (diagnostics d).regwin = true ↔ ∃ rd rs rt : RegIdx,
      (d = .instr (.add rd rs rt) ∨ d = .instr (.sub rd rs rt) ∨ d = .instr (.or rd rs rt)) ∧
        ∃ r ∈ [rs, rt, rd], r.val < 8 ∨ 23 < r.val := by
  simp only [← not_allInWindow_iff_exists]
  cases d with
  | undefined why => simp [diagnostics]
  | instr i => cases i <;> simp [diagnostics, regwin]

theorem diagnostics_not_both (d : Decoded) : ¬ ((diagnostics d).undef = true ∧ (diagnostics d).regwin = true) := by
  cases d with
  | undefined why => exact fun h => Bool.false_ne_true h.2
  | instr i => exact fun h => Bool.false_ne_true h.1

/-- Settles O8: both clauses hold of every record, so of every decoded one. -/
theorem registerWindowDiagnostic : Obligations.RegisterWindowDiagnostic :=
  fun w => ⟨regwin_diagnostics_iff (decode w), diagnostics_not_both (decode w)⟩

end Sys2Proof
end

section
/-! PROOFS. The access primitives clause by clause, words that read back, and the fetch (spec/20_memory.md R63 to R67, R74;
40_execution_cycle.md R122). -/

namespace Sys2Proof.Machine

/-! ## `MemRead` and `MemWrite` in the terms of the claims -/

section Answers
variable {m m' : Memory} {a v : Word}

theorem not_overruns_of_aligned (h : a.toNat % 4 = 0) : ¬ Overruns a := by
  unfold Overruns
  omega

theorem memRead_of_unmapped (h : 384 ≤ a.toNat) : memRead m a = .ok 0#32 :=
  (memRead_eq m a).trans (if_pos h)

theorem memRead_of_overruns (h : Overruns a) : memRead m a = .error ⟨a⟩ := by
  unfold Overruns at h
  rw [memRead_eq, if_neg (by omega), if_pos (by omega)]

theorem memRead_of_fits (ha : a.toNat < 384) (h : ¬ Overruns a) : memRead m a = .ok (m.readWord a.toNat) := by
  unfold Overruns at h
  rw [memRead_eq, if_neg (by omega), if_neg (by omega)]

theorem memWrite_of_unmapped (h : 384 ≤ a.toNat) : memWrite m a v = .ok m :=
  (memWrite_eq m a v).trans (if_pos h)

theorem memWrite_of_overruns (h : Overruns a) : memWrite m a v = .error ⟨a⟩ := by
  unfold Overruns at h
  rw [memWrite_eq, if_neg (by omega), if_pos (by omega)]

theorem memWrite_of_fits (ha : a.toNat < 384) (h : ¬ Overruns a) :
    memWrite m a v = .ok (m.writeWord a.toNat v) := by
  unfold Overruns at h
  rw [memWrite_eq, if_neg (by omega), if_neg (by omega)]

/-- Without an overrun `MemRead` gives a word. -/
theorem memRead_completes (m : Memory) (h : ¬ Overruns a) : ∃ v, memRead m a = .ok v := by
  obtain hu | hm := le_or_gt 384 a.toNat
  · exact ⟨_, memRead_of_unmapped hu⟩
  · exact ⟨_, memRead_of_fits hm h⟩

/-- Without an overrun `MemWrite` completes. -/
theorem memWrite_completes (m : Memory) (v : Word) (h : ¬ Overruns a) : ∃ m', memWrite m a v = .ok m' := by
  obtain hu | hm := le_or_gt 384 a.toNat
  · exact ⟨_, memWrite_of_unmapped hu⟩
  · exact ⟨_, memWrite_of_fits hm h⟩

/-- A write that completes was dropped, or stored a word that fits. -/
theorem memWrite_ok_cases (h : memWrite m a v = .ok m') :
    (384 ≤ a.toNat ∧ m' = m) ∨ (a.toNat < 384 ∧ ¬ Overruns a ∧ m' = m.writeWord a.toNat v) := by
  by_cases ho : Overruns a
  · cases h.symm.trans (memWrite_of_overruns ho)
  · obtain hu | hm := le_or_gt 384 a.toNat
    · exact .inl ⟨hu, Except.ok.inj (h.symm.trans (memWrite_of_unmapped hu))⟩
    · exact .inr ⟨hm, ho, Except.ok.inj (h.symm.trans (memWrite_of_fits hm ho))⟩

/-- A write changes no byte outside its four. -/
theorem memWrite_frame (h : memWrite m a v = .ok m') {n : Nat} (hn : n < a.toNat ∨ a.toNat + 4 ≤ n) :
    m'.readByte n = m.readByte n := by
  obtain ⟨-, rfl⟩ | ⟨-, -, rfl⟩ := memWrite_ok_cases h
  · rfl
  · exact m.readByte_writeWord_outside v hn

/-- A write at an address of a region leaves the word's four bytes there, lowest first. -/
theorem memWrite_bytes (hm : m.wf) (h : memWrite m a v = .ok m') (ha : a.toNat < 384) :
    m'.readByte a.toNat = v.extractLsb 7 0 ∧ m'.readByte (a.toNat + 1) = v.extractLsb 15 8 ∧
      m'.readByte (a.toNat + 2) = v.extractLsb 23 16 ∧ m'.readByte (a.toNat + 3) = v.extractLsb 31 24 := by
  obtain ⟨hu, -⟩ | ⟨-, -, rfl⟩ := memWrite_ok_cases h
  · omega
  · exact Memory.readByte_writeWord hm.1 a.toNat v

/-- A word written at an address of a region reads back. -/
theorem memRead_of_memWrite (hm : m.wf) (h : memWrite m a v = .ok m') (ha : a.toNat < 384) :
    memRead m' a = .ok v := by
  obtain ⟨hu, -⟩ | ⟨-, ho, rfl⟩ := memWrite_ok_cases h
  · omega
  · rw [memRead_of_fits ha ho, Memory.readWord_writeWord hm.1]

end Answers

/-- Settles O11: the three answers of `MemRead`, the last one's bytes joined by shifts. -/
theorem memReadAnswers : Obligations.MemReadAnswers :=
  fun _ _ => ⟨memRead_of_unmapped, memRead_of_overruns, fun ha h =>
    (memRead_of_fits ha h).trans (congrArg Except.ok (leWord_eq_or_shift _ _ _ _))⟩

/-- Settles O12: the three answers of `MemWrite`; the last one stores four bytes and keeps the form and the others. -/
theorem memWriteAnswers : Obligations.MemWriteAnswers := by
  intro m a v hm
  refine ⟨memWrite_of_unmapped, memWrite_of_overruns, fun ha h => ?_⟩
  have hw : memWrite m a v = .ok (m.writeWord a.toNat v) := memWrite_of_fits ha h
  obtain ⟨h0, h1, h2, h3⟩ := memWrite_bytes hm hw ha
  exact ⟨_, hw, memWrite_wf hm hw, h0, h1, h2, h3, fun n hn => memWrite_frame hw hn⟩

/-- Settles O13: an aligned address does not overrun either, and what a write that completes leaves reads back. -/
theorem memoryRoundTrip : Obligations.MemoryRoundTrip := by
  intro m a v hm ha h
  obtain ⟨m', hw⟩ := memWrite_completes m v (h.elim not_overruns_of_aligned id)
  exact ⟨m', hw, memRead_of_memWrite hm hw ha⟩

/-! ## The fetch -/

theorem exec_storeWord_next {rt rs : RegIdx} {imm : Word} {s t : State} (h : exec (.storeWord rt rs imm) s = .next t) :
    ∃ m, memWrite s.mem (storeAddress s rs imm) (s.cur.read rt) = .ok m ∧ t = { s with mem := m } := by
  obtain ⟨m, hm, hk⟩ := withAccess_next h
  cases hk
  exact ⟨m, hm, rfl⟩

/-- Settles O14: the fetch is `MemRead` of the memory that the store left. -/
theorem storedWordIsFetched : Obligations.StoredWordIsFetched := by
  intro rt rs imm s t u hm h ha hmem hpc
  obtain ⟨m, hw, rfl⟩ := exec_storeWord_next h
  rw [fetch, hmem, hpc]
  exact memRead_of_memWrite hm hw ha

theorem fetch_of_aligned {s : State} (h : s.pc.toNat % 4 = 0) : ∃ w, fetch s = .ok w :=
  memRead_completes s.mem (not_overruns_of_aligned h)

/-- Settles O23: an aligned access does not overrun, and an unmapped one gives 0. -/
theorem alignedFetchNeverOverruns : Obligations.AlignedFetchNeverOverruns := by
  intro s h
  obtain ⟨w, hw⟩ := fetch_of_aligned h
  exact ⟨w, hw, fun hu => Except.ok.inj (hw.symm.trans (fetch_of_unmapped hu))⟩

/-! ## Placing a word -/

theorem holdsWord_iff (a : Word) : holdsWord a = true ↔ a.toNat < 384 ∧ ¬ Overruns a := by
  unfold holdsWord Overruns
  rw [owner_eq]
  by_cases hd : a.toNat < 256
  · simp only [if_pos hd, overrunsRegion_dataRegion, Bool.not_eq_true', decide_eq_false_iff_not]
    omega
  · by_cases hi : a.toNat < 384
    · simp only [if_neg hd, if_pos hi, overrunsRegion_instrRegion (Nat.le_of_not_lt hd), Bool.not_eq_true',
        decide_eq_false_iff_not]
      omega
    · simp [hd, hi]

theorem memRead_placeWord {m : Memory} {a : Word} (hm : m.wf) (h : holdsWord a = true) (v : Word) :
    memRead (m.placeWord a v) a = .ok v := by
  obtain ⟨ha, ho⟩ := (holdsWord_iff a).mp h
  have hw : memWrite m a v = .ok (m.writeWord a.toNat v) := memWrite_of_fits ha ho
  have hplace : m.placeWord a v = m.writeWord a.toNat v := by simp only [Memory.placeWord, hw]
  rw [hplace, memRead_of_memWrite hm hw ha]

/-- Settles O45: the word lies at `pc`, or at the start PC of a one-word program, and each of the two addresses holds a
word. -/
theorem placedWordIsFetchedNext : Obligations.PlacedWordIsFetchedNext := by
  intro s w hm
  have hword : BitVec.ofNat 32 (w % 2 ^ 32) = BitVec.ofNat 32 w := by
    apply BitVec.eq_of_toNat_eq
    simp
  unfold State.withFetchWord
  rw [hword]
  split
  · next h =>
    obtain ⟨hr, hp, hh⟩ := h
    exact ⟨⟨hr, hp, memRead_placeWord hm hh _⟩, rfl, rfl⟩
  · have hp : Config.startPc ≠ Config.startPc + BitVec.ofNat 32 Config.wordBytes := by decide
    have hh : holdsWord Config.startPc = true := by decide
    exact ⟨⟨rfl, hp, memRead_placeWord hm hh _⟩, rfl, rfl⟩

/-! ## The observation -/

theorem length_regionBytes (m : Memory) (r : Region) : (regionBytes m r).length = r.size := by
  simp [regionBytes]

theorem getElem?_regionBytes (m : Memory) {r : Region} {k : Nat} (h : k < r.size) :
    (regionBytes m r)[k]? = some (m.readByte (r.start + k)) := by
  simp [regionBytes, h]

/-- Settles O46: the fields are the state's, and a region's bytes are listed in order. -/
theorem observationOfAState : Obligations.ObservationOfAState := by
  intro s
  refine ⟨rfl, rfl, rfl, length_regionBytes _ _, fun k hk => ?_, length_regionBytes _ _, fun k hk => ?_, fun _ => rfl⟩
  · have h := getElem?_regionBytes s.mem (r := Config.dataRegion) hk
    rwa [show Config.dataRegion.start + k = k from Nat.zero_add k] at h
  · exact getElem?_regionBytes s.mem (r := Config.instrRegion) hk

end Sys2Proof.Machine
end

section
/-! PROOFS. What ADD, SUB, OR, STORE_WORD and LOAD_WORD compute and leave unchanged (spec/41_arith_logic.md R141 to R144,
42_load_store.md R160 to R162, 70_reset_and_hazards.md R240 to R243). -/

namespace Sys2Proof.Machine

/-! ## ADD, SUB and OR -/

theorem exec_add (rd rs rt : RegIdx) (s : State) :
    exec (.add rd rs rt) s = .next (s.writeResult rd (s.cur.read rd + s.cur.read rs + s.cur.read rt)) := rfl

theorem exec_sub (rd rs rt : RegIdx) (s : State) :
    exec (.sub rd rs rt) s = .next (s.writeResult rd (s.cur.read rd - (s.cur.read rs + s.cur.read rt))) := rfl

/-- A register result is the same word in both snapshots. -/
theorem State.writeResult_next_eq_cur (s : State) (r : RegIdx) (v : Word) :
    (s.writeResult r v).next.read r = (s.writeResult r v).cur.read r := by
  rw [State.read_writeResult_next, State.read_writeResult_cur]

theorem State.read_writeResult_cur_ne (s : State) {r q : RegIdx} (v : Word) (h : q ≠ r) :
    (s.writeResult r v).cur.read q = s.cur.read q := by
  rw [State.writeResult_cur, RegFile.read_write_ne _ _ h]

theorem State.read_writeResult_next_ne (s : State) {r q : RegIdx} (v : Word) (h : q ≠ r) :
    (s.writeResult r v).next.read q = s.next.read q := by
  rw [State.writeResult_next, RegFile.read_write_ne _ _ h]

theorem toNat_add_add (x y z : Word) : (x + y + z).toNat = (x.toNat + y.toNat + z.toNat) % 2 ^ 32 := by
  rw [BitVec.toNat_add, BitVec.toNat_add, Nat.mod_add_mod]

theorem toNat_sub_add (x y z : Word) :
    ((x - (y + z)).toNat : Int) = ((x.toNat - (y.toNat + z.toNat) : Int)) % 2 ^ 32 := by
  have := x.isLt
  rw [BitVec.toNat_sub, BitVec.toNat_add]
  omega

/-- Settles O15: ADD is one register result, the sum of three words. -/
theorem addAccumulates : Obligations.AddAccumulates := by
  intro rd rs rt s
  refine ⟨_, exec_add rd rs rt s, ?_, s.writeResult_next_eq_cur rd _, s.writeResult_frame rd _⟩
  rw [State.read_writeResult_cur, toNat_add_add]

/-- Settles O16: SUB is one register result, a word less the sum of two. -/
theorem subSubtractsTheSum : Obligations.SubSubtractsTheSum := by
  intro rd rs rt s
  refine ⟨_, exec_sub rd rs rt s, ?_, s.writeResult_next_eq_cur rd _, s.writeResult_frame rd _⟩
  rw [State.read_writeResult_cur, toNat_sub_add]

/-- With both sources the same register, OR copies it. -/
theorem exec_or_self (rd r : RegIdx) (s : State) : exec (.or rd r r) s = .next (s.writeResult rd (s.cur.read r)) := by
  rw [exec_or, BitVec.or_self]

/-- Settles O18: `|||` is commutative and idempotent. -/
theorem orLaws : Obligations.OrLaws := by
  refine ⟨fun rd rs rt s => ?_, fun rd r s h => ?_⟩
  · rw [exec_or, exec_or, BitVec.or_comm]
  · exact ⟨_, exec_or_self rd r s, s.read_writeResult_cur rd _, s.read_writeResult_cur_ne _ h.symm⟩

/-- Settles O30: OR of a register with itself is a copy, and what SUB subtracts from cur[d] is cur[d] + 0. -/
theorem programmingIdioms : Obligations.ProgrammingIdioms := by
  refine ⟨fun r s => ?_, fun d z s hz => ⟨?_, fun _ => ?_⟩⟩
  · exact ⟨_, exec_or_self r r s, s.read_writeResult_cur r _, s.read_writeResult_next r _⟩
  · exact ⟨_, exec_or_self d z s, (s.read_writeResult_cur d _).trans hz⟩
  · refine ⟨_, exec_sub d d z s, ?_⟩
    rw [State.read_writeResult_cur, hz, BitVec.add_zero, BitVec.sub_self]

/-! ## STORE_WORD -/

theorem exec_storeWord_of_memWrite {rt rs : RegIdx} {imm : Word} {s : State} {m : Memory}
    (h : memWrite s.mem (storeAddress s rs imm) (s.cur.read rt) = .ok m) :
    exec (.storeWord rt rs imm) s = .next { s with mem := m } := by
  simp only [exec, execStoreWord, withAccess, h]

/-- Settles O19: STORE_WORD is `MemWrite`, which completes without an overrun. -/
theorem storeWordStores : Obligations.StoreWordStores := by
  intro rt rs imm s ho
  obtain ⟨m, hw⟩ := memWrite_completes s.mem (s.cur.read rt) ho
  refine ⟨BitVec.toNat_add _ _, _, exec_storeWord_of_memWrite hw, rfl, rfl, ⟨rfl, rfl, rfl, rfl, rfl⟩,
    fun hm ha => memWrite_bytes hm hw ha, fun n hn => memWrite_frame hw hn, fun hu n => ?_⟩
  obtain ⟨-, rfl⟩ | ⟨ha, -, -⟩ := memWrite_ok_cases hw
  · rfl
  · omega

/-! ## LOAD_WORD -/

theorem exec_loadWord_of_memRead {rt rs : RegIdx} {imm v : Word} {s : State}
    (h : memRead s.mem (loadAddress s rs imm) = .ok v) :
    exec (.loadWord rt rs imm) s = .next ((s.setNext rt v).commit rs) := by
  simp only [exec, execLoadWord, withAccess, h]

theorem exec_loadWord_next {rt rs : RegIdx} {imm : Word} {s t : State} (h : exec (.loadWord rt rs imm) s = .next t) :
    ∃ v, memRead s.mem (loadAddress s rs imm) = .ok v ∧ t = (s.setNext rt v).commit rs := by
  obtain ⟨v, hv, hk⟩ := withAccess_next h
  cases hk
  exact ⟨v, hv, rfl⟩

section Loaded
variable (s : State) {rt rs : RegIdx} (v : Word)

theorem State.loaded_next_read : ((s.setNext rt v).commit rs).next.read rt = v :=
  RegFile.read_write_same _ _ _

theorem State.loaded_cur_read_base_same : ((s.setNext rs v).commit rs).cur.read rs = v :=
  (RegFile.read_write_same _ _ _).trans (RegFile.read_write_same _ _ _)

theorem State.loaded_cur_read_base_ne (h : rt ≠ rs) : ((s.setNext rt v).commit rs).cur.read rs = s.next.read rs :=
  (RegFile.read_write_same _ _ _).trans (RegFile.read_write_ne _ _ h.symm)

/-- The frame of a load: the base register of `cur`, the target of `next`, and nothing else. -/
theorem State.loaded_frame :
    SameRegistersBut rs s.cur ((s.setNext rt v).commit rs).cur ∧
      SameRegistersBut rt s.next ((s.setNext rt v).commit rs).next ∧
      SameControl s ((s.setNext rt v).commit rs) ∧ SameMemory s ((s.setNext rt v).commit rs) :=
  ⟨RegFile.sameRegistersBut_write _ _ _, RegFile.sameRegistersBut_write _ _ _, ⟨rfl, rfl, rfl, rfl, rfl⟩,
    fun _ => rfl⟩

end Loaded

/-- Settles O20: LOAD_WORD is `MemRead`, which gives a word without an overrun, then the commit of the base. -/
theorem loadWordLoadsIntoNext : Obligations.LoadWordLoadsIntoNext := by
  intro rt rs imm s ho
  obtain ⟨v, hv⟩ := memRead_completes s.mem ho
  refine ⟨BitVec.toNat_add _ _, _, v, exec_loadWord_of_memRead hv, hv, s.loaded_next_read v, ?_,
    s.loaded_cur_read_base_ne v, s.loaded_frame v⟩
  rintro rfl
  exact s.loaded_cur_read_base_same v

/-- Settles O29: the first load leaves its word in next[r]; the second takes its base from there and commits it. -/
theorem loadedWordPassesThroughNext : Obligations.LoadedWordPassesThroughNext := by
  intro r rs q imm imm' s t u h1 h2 hq
  obtain ⟨v, hv, rfl⟩ := exec_loadWord_next h1
  obtain ⟨v', hv', rfl⟩ := exec_loadWord_next h2
  have hcur := (((s.setNext r v).commit rs).loaded_cur_read_base_ne v' hq).trans (s.loaded_next_read v)
  rw [loadAddress, s.loaded_next_read v] at hv'
  rw [hcur, State.loaded_next_read]
  obtain ⟨hframe, -, -, -⟩ := s.loaded_frame (rt := r) (rs := rs) v
  exact ⟨hv, hv', hframe r⟩

/-! ## Who reads the next snapshot -/

/-- Only LOAD_WORD takes its address from `next`. -/
theorem accessAddress_with_next {i : Instr} (hi : ∀ rt rs imm, i ≠ .loadWord rt rs imm) (s : State) (n : RegFile) :
    accessAddress { s with next := n } i = accessAddress s i := by
  cases i with
  | add rd rs rt => rfl
  | sub rd rs rt => rfl
  | or rd rs rt => rfl
  | loadWord rt rs imm => exact absurd rfl (hi rt rs imm)
  | storeWord rt rs imm => rfl

/-- An access that overruns is raised, whatever the instruction. -/
theorem exec_of_overruns {i : Instr} {s : State} {a : Word} (ha : accessAddress s i = some a) (ho : Overruns a) :
    exec i s = raiseRegionOverrun a s := by
  cases i with
  | add rd rs rt => cases ha
  | sub rd rs rt => cases ha
  | or rd rs rt => cases ha
  | loadWord rt rs imm =>
    cases ha
    simp only [exec, execLoadWord, withAccess, memRead_of_overruns ho]
  | storeWord rt rs imm =>
    cases ha
    simp only [exec, execStoreWord, withAccess, memWrite_of_overruns ho]

/-- A register result's `cur` and memory do not depend on `next`. -/
theorem State.writeResult_with_next (s : State) (n : RegFile) (r : RegIdx) (v : Word) :
    ({ s with next := n }.writeResult r v).cur = (s.writeResult r v).cur ∧
      ({ s with next := n }.writeResult r v).mem = (s.writeResult r v).mem :=
  ⟨by rw [State.writeResult_cur, State.writeResult_cur], rfl⟩

/-- Settles O28: ADD, SUB and OR compute from `cur` alone; a store writes `cur` to an address from `cur`; and the access
address decides a fault. -/
theorem onlyLoadWordReadsNext : Obligations.OnlyLoadWordReadsNext := by
  intro i s n hi
  refine ⟨fun t h => ?_, fun a t h => ?_⟩
  · cases i with
    | add rd rs rt => cases h; exact ⟨_, exec_add _ _ _ _, s.writeResult_with_next n rd _⟩
    | sub rd rs rt => cases h; exact ⟨_, exec_sub _ _ _ _, s.writeResult_with_next n rd _⟩
    | or rd rs rt => cases h; exact ⟨_, exec_or _ _ _ _, s.writeResult_with_next n rd _⟩
    | loadWord rt rs imm => exact absurd rfl (hi rt rs imm)
    | storeWord rt rs imm =>
      obtain ⟨m, hw, rfl⟩ := exec_storeWord_next h
      exact ⟨_, exec_storeWord_of_memWrite hw, rfl, rfl⟩
  · obtain ⟨b, hb, ho, hf⟩ := exec_fault_cases h
    obtain ⟨rfl, -⟩ := Fault.regionOverrun.inj hf
    exact ⟨_, exec_of_overruns ((accessAddress_with_next hi s n).trans hb) ho⟩

end Sys2Proof.Machine
end

section
/-! PROOFS. What a step changes and by which instruction (spec/10_state.md R30, R33 to R35, 20_memory.md section 7), and
which steps fault (60_exceptions.md R200, R202). -/

namespace Sys2Proof.Machine

/-! ## Changes of registers and memory -/

/-- A register of `cur` changes only by the instruction that commits it. -/
theorem commitTarget_of_cur_changed {i : Instr} {s t : State} {r : RegIdx} (h : exec i s = .next t)
    (hne : t.cur.read r ≠ s.cur.read r) : commitTarget i = some r := by
  cases hc : commitTarget i with
  | none => exact absurd (congrArg (·.read r) (exec_keeps_cur_of_no_commit h hc)) hne
  | some q =>
    obtain ⟨-, hframe⟩ := exec_commits h hc
    by_contra hq
    exact hne (hframe r fun e => hq (congrArg some e.symm))

/-- A register of `next` changes only by the instruction whose EXECUTE writes it. -/
theorem nextTarget_of_next_changed {i : Instr} {s t : State} {r : RegIdx} (h : exec i s = .next t)
    (hne : t.next.read r ≠ s.next.read r) : nextTarget i = some r := by
  obtain ⟨rd, v, hn, -, -, rfl⟩ | ⟨rt, rs, imm, v, rfl, -, rfl⟩ | ⟨rt, rs, imm, m, -, -, rfl⟩ := exec_next_cases h
  · by_contra hq
    exact hne (s.read_writeResult_next_ne v fun e => hq (hn.trans (congrArg some e.symm)))
  · by_contra hq
    exact hne (RegFile.read_write_ne _ _ fun e => hq (congrArg some e.symm))
  · exact absurd rfl hne

/-- A byte of memory changes only by a STORE_WORD whose four bytes include it, at an address of a region. -/
theorem storeWord_of_byte_changed {i : Instr} {s t : State} {n : Nat} (h : exec i s = .next t)
    (hne : t.mem.readByte n ≠ s.mem.readByte n) :
    ∃ rt rs imm, i = .storeWord rt rs imm ∧ (storeAddress s rs imm).toNat ≤ n ∧
      n < (storeAddress s rs imm).toNat + 4 ∧ n < 384 := by
  obtain ⟨rd, v, -, -, -, rfl⟩ | ⟨rt, rs, imm, v, -, -, rfl⟩ | ⟨rt, rs, imm, m, rfl, hw, rfl⟩ := exec_next_cases h
  · exact absurd rfl hne
  · exact absurd rfl hne
  · have hin : ¬ (n < (storeAddress s rs imm).toNat ∨ (storeAddress s rs imm).toNat + 4 ≤ n) :=
      fun hout => hne (memWrite_frame hw hout)
    obtain ⟨-, rfl⟩ | ⟨ha, ho, -⟩ := memWrite_ok_cases hw
    · exact absurd rfl hne
    · unfold Overruns at ho
      exact ⟨rt, rs, imm, rfl, by omega, by omega, by omega⟩

/-- A step leaves both snapshots and memory, unless it runs a recognised instruction, whose `exec` made them. -/
theorem step_next_data {s t : State} (h : step s = .next t) :
    (t.cur = s.cur ∧ t.next = s.next ∧ t.mem = s.mem) ∨
    (∃ w i u, Fetches s w ∧ decode w = .instr i ∧ exec i (s.latch (.instr i)) = .next u ∧ t = u.finishCycle) := by
  obtain ⟨-, rfl⟩ | ⟨-, -, rfl⟩ | ⟨w, u, hf, hu, rfl⟩ := step_next_cases h
  · exact .inl ⟨rfl, rfl, rfl⟩
  · exact .inl ⟨rfl, rfl, rfl⟩
  · obtain ⟨i, hd, hi⟩ | ⟨why, -, rfl⟩ := runDecoded_next_cases hu
    · exact .inr ⟨w, i, u, hf, hd, hd ▸ hi, rfl⟩
    · exact .inl ⟨rfl, rfl, rfl⟩

/-- Settles O26: a register that changed was changed by `exec`, which names its targets. -/
theorem registersChangeOnlyByTheirInstructions : Obligations.RegistersChangeOnlyByTheirInstructions := by
  intro s t r h
  obtain ⟨hcur, hnext, -⟩ | ⟨w, i, u, hf, hd, hi, rfl⟩ := step_next_data h
  · exact ⟨fun hne => absurd (congrArg (·.read r) hcur) hne, fun hne => absurd (congrArg (·.read r) hnext) hne⟩
  · exact ⟨fun hne => ⟨w, i, hf, hd, commitTarget_of_cur_changed hi hne⟩,
      fun hne => ⟨w, i, hf, hd, nextTarget_of_next_changed hi hne⟩⟩

/-- Settles O38: a byte that changed was changed by `exec`, so by a store. -/
theorem memoryChangesOnlyByStores : Obligations.MemoryChangesOnlyByStores := by
  intro s t n h hne
  obtain ⟨-, -, hmem⟩ | ⟨w, i, u, hf, hd, hi, rfl⟩ := step_next_data h
  · exact absurd (congrArg (·.readByte n) hmem) hne
  · obtain ⟨rt, rs, imm, rfl, hspan⟩ := storeWord_of_byte_changed hi hne
    exact ⟨w, rt, rs, imm, hf, hd, hspan⟩

/-! ## Where the snapshots part (R35) -/

/-- An instruction that writes a register of `next` without committing it is a LOAD_WORD into it; every other keeps the
snapshots alike where they are. -/
theorem exec_keeps_snapshots_alike {i : Instr} {s t : State} {r : RegIdx} (h : exec i s = .next t)
    (hi : ∀ rs imm, i ≠ .loadWord r rs imm) (hr : s.cur.read r = s.next.read r) : t.cur.read r = t.next.read r := by
  by_cases hc : t.cur.read r = s.cur.read r
  · by_cases hn : t.next.read r = s.next.read r
    · rw [hc, hn, hr]
    · have htarget := nextTarget_of_next_changed h hn
      cases i with
      | add rd rs rt => exact (exec_commits h htarget).1
      | sub rd rs rt => exact (exec_commits h htarget).1
      | or rd rs rt => exact (exec_commits h htarget).1
      | loadWord rt rs imm => cases htarget; exact absurd rfl (hi rs imm)
      | storeWord rt rs imm => cases htarget
  · exact (exec_commits h (commitTarget_of_cur_changed h hc)).1

/-- Settles O27: the cycle leaves both snapshots, or runs an instruction that keeps them alike. -/
theorem snapshotsPartOnlyByLoads : Obligations.SnapshotsPartOnlyByLoads := by
  intro s t w r hf h hr hw
  rw [step_of_fetches hf] at h
  obtain ⟨u, hu, rfl⟩ := finish_next h
  obtain ⟨i, hd, hi⟩ | ⟨-, -, rfl⟩ := runDecoded_next_cases hu
  · have hload : ∀ rs imm, i ≠ .loadWord r rs imm := fun rs imm e => hw rs imm (hd.trans (congrArg Decoded.instr e))
    exact exec_keeps_snapshots_alike (s := s.latch (decode w)) (t := u) hi hload hr
  · exact hr

/-! ## Faults -/

/-- DECODE leaves the registers that an access address is made of. -/
theorem accessAddress_latch (s : State) (d : Decoded) (i : Instr) :
    accessAddress (s.latch d) i = accessAddress s i := by
  cases i <;> rfl

/-- Settles O21: the access is raised before any write, and a faulted block waits. -/
theorem overrunFaultsPrecisely : Obligations.OverrunFaultsPrecisely := by
  intro s w i a hf hd ha ho
  have hexec := exec_of_overruns ((accessAddress_latch s (.instr i) i).trans ha) ho
  have hstep := (step_of_fetches_instr hf hd).trans (congrArg finish hexec)
  exact ⟨_, hstep, rfl, rfl, rfl, rfl, rfl, rfl, rfl, step_of_not_running nofun⟩

theorem finish_fault {x : Result} {f : Fault} (h : finish x = .fault f) : x = .fault f := by
  cases x with
  | next s => cases h
  | fault g => exact h
  | refused r => cases h

/-- From an aligned pc a step that faults ran an instruction whose access overran. -/
theorem step_fault_of_aligned {s : State} {f : Fault} (hp : s.pc.toNat % 4 = 0) (h : step s = .fault f) :
    ∃ w i a, Fetches s w ∧ decode w = .instr i ∧ accessAddress s i = some a ∧ Overruns a ∧
      f = .regionOverrun a { s.latch (.instr i) with status := .faulted a } := by
  obtain ⟨w, hw⟩ := fetch_of_aligned hp
  have hr : s.status = .running := by
    by_contra hr
    cases h.symm.trans (step_of_not_running hr)
  have hne : s.pc ≠ s.terminalPc := fun he => by cases h.symm.trans (step_at_terminalPc hr he)
  have hf : Fetches s w := ⟨hr, hne, hw⟩
  cases hd : decode w with
  | undefined why => cases h.symm.trans (step_of_undefined hf ⟨why, hd⟩)
  | instr i =>
    obtain ⟨a, ha, ho, rfl⟩ := exec_fault_cases (finish_fault ((step_of_fetches_instr hf hd).symm.trans h))
    exact ⟨w, i, a, hf, hd, (accessAddress_latch s (.instr i) i).symm.trans ha, ho, rfl⟩

/-- Settles O22: `step_fault_of_aligned` names the instruction and the address. -/
theorem onlyOverrunningAccessesFault : Obligations.OnlyOverrunningAccessesFault := by
  intro s f hp h
  obtain ⟨w, i, a, hf, hd, ha, ho, rfl⟩ := step_fault_of_aligned hp h
  exact ⟨w, i, a, _, hf, hd, ha, ho, rfl⟩

end Sys2Proof.Machine
end

section
/-! PROOFS. Reset and launch (spec/10_state.md R44, 70_reset_and_hazards.md R231 to R236). -/

namespace Sys2Proof.Machine

/-! ## Reset -/

/-- Settles O39: both snapshots are the zero file and memory lists no byte. -/
theorem resetValues : Obligations.ResetValues :=
  ⟨fun r => ⟨RegFile.read_zero r, RegFile.read_zero r⟩, rfl, rfl, rfl, Memory.readByte_nil, rfl, rfl⟩

/-- Settles O40: the empty memory is canonical, both PCs are 0 and the block is idle. -/
theorem resetMeetsTheInvariant : Obligations.ResetMeetsTheInvariant :=
  ⟨Memory.wf_nil, rfl, rfl, rfl, nofun⟩

/-! ## What the launch answers -/

section Premises
variable {l : LaunchInputs} {ps : List Word}

theorem launch_of_not_idle (l : LaunchInputs) {s : State} (h : s.status ≠ .idle) :
    launch l s = .refused .alreadyLaunched :=
  if_pos h

theorem launch_reset_of_unreadable (h : l.program = none) : launch l State.reset = .refused .programUnreadable := by
  unfold launch
  rw [if_neg (by decide), h]

theorem launch_reset_of_mismatch (h : l.program = some ps) (hp : ¬ terminalPcAgrees l.terminalPc ps.length = true) :
    launch l State.reset = .refused .terminalPcMismatch := by
  unfold launch
  rw [if_neg (by decide), h]
  exact if_neg hp

theorem launch_reset_of_agrees (h : l.program = some ps) (hp : terminalPcAgrees l.terminalPc ps.length = true)
    {m : Memory} (hm : loadProgram [] Config.startPc ps = .ok m) :
    launch l State.reset = .next (startState l m State.reset) := by
  have hload : loadProgram State.reset.mem Config.startPc ps = .ok m := hm
  unfold launch
  rw [if_neg (by decide), h]
  simp only [if_pos hp, hload, withAccess]

end Premises

/-- Settles O43: each clause is one refusal of the launch. -/
theorem launchIsRefusedWithoutItsPremises : Obligations.LaunchIsRefusedWithoutItsPremises := by
  refine ⟨fun l h => launch_reset_of_unreadable h, fun l ps h hp => launch_reset_of_mismatch h ?_,
    fun l s h => launch_of_not_idle l h⟩
  rw [terminalPcAgrees_iff]
  omega

/-! ## The memory of the launched block -/

/-- The program from an empty memory: it never overruns, its words inside region I read back, and every other byte is
unlisted. -/
theorem loadProgram_nil_spec (ps : List Word) (h : 256 + 4 * ps.length ≤ 2 ^ 32 - 4) :
    ∃ m, loadProgram [] Config.startPc ps = .ok m ∧ m.wf ∧
      (∀ n, n < 256 ∨ 256 + 4 * ps.length ≤ n → m.readByte n = 0#8) ∧
      (∀ i : Fin ps.length, i.val < 32 → m.readWord (256 + 4 * i.val) = ps[i]) := by
  have hstart : Config.startPc.toNat = 256 := rfl
  obtain ⟨m, hl, hm, hout, hwords⟩ := loadProgram_spec ps [] Config.startPc Memory.wf_nil (by decide) (by omega)
  rw [hstart] at hout hwords
  exact ⟨m, hl, hm, hout, fun i hi => hwords i (by omega)⟩

section Presets
variable (l : LaunchInputs) {m : Memory} (hm : m.wf) (s : State)
include hm

theorem startState_mem_wf : (startState l m s).mem.wf :=
  (presetBytes_spec l.data.toList m 0 hm (by simp)).1

theorem startState_readByte_data (k : Fin 256) : (startState l m s).mem.readByte k = l.data[k] := by
  obtain ⟨-, -, hbytes⟩ := presetBytes_spec l.data.toList m 0 hm (by simp)
  have hk := hbytes ⟨k, by simp⟩
  rw [Nat.zero_add] at hk
  exact hk.trans (by simp)

theorem startState_readByte_above {n : Nat} (h : 256 ≤ n) : (startState l m s).mem.readByte n = m.readByte n := by
  obtain ⟨-, hout, -⟩ := presetBytes_spec l.data.toList m 0 hm (by simp)
  exact hout n (.inr (by simpa using h))

theorem startState_readWord_above {n : Nat} (h : 256 ≤ n) : (startState l m s).mem.readWord n = m.readWord n := by
  have hbyte (k : Nat) := startState_readByte_above l hm s (n := n + k) (by omega)
  simp only [Memory.readWord, hbyte, startState_readByte_above l hm s h]

end Presets

/-- The launched state meets the invariant. -/
theorem startState_inv {l : LaunchInputs} {m : Memory} {n : Nat} (hm : m.wf)
    (ht : l.terminalPc.toNat = 256 + 4 * n) : (startState l m State.reset).Inv where
  memWf := startState_mem_wf l hm State.reset
  pcAligned := (by decide : Config.startPc.toNat % 4 = 0)
  terminalAligned := by change l.terminalPc.toNat % 4 = 0; omega
  recordEmpty := rfl
  notPast := fun _ => by change 256 ≤ l.terminalPc.toNat; omega

/-- Settles O42: the loader puts the program into an empty memory from 256 on, and the presets fill region D below it. -/
theorem launchStartsTheRun : Obligations.LaunchStartsTheRun := by
  intro l ps hps ht hmax
  obtain ⟨m, hl, hm, hzero, hwords⟩ := loadProgram_nil_spec ps (ht ▸ hmax)
  refine ⟨_, launch_reset_of_agrees hps ((terminalPcAgrees_iff _ _).mpr ⟨ht, hmax⟩) hl, rfl, rfl, rfl, rfl, rfl, rfl,
    rfl, startState_readByte_data l hm _, fun i hi => ?_, fun a ha => ?_, startState_inv hm ht⟩
  · have haddr : (BitVec.ofNat 32 (256 + 4 * i.val)).toNat = 256 + 4 * i.val := by
      rw [BitVec.toNat_ofNat]
      omega
    have hfits : ¬ Overruns (BitVec.ofNat 32 (256 + 4 * i.val)) := not_overruns_of_aligned (by omega)
    rw [memRead_of_fits (by omega) hfits, haddr, startState_readWord_above l hm _ (by omega), hwords i hi]
  · rw [startState_readByte_above l hm _ (by omega), hzero a (.inr ha)]

end Sys2Proof.Machine
end

section
/-! PROOFS. Every launched run ends (spec/40_execution_cycle.md R129, R130). -/

namespace Sys2Proof.Machine

/-- From `s` the run completes `n` cycles, in steps of 4 from its `pc`, and halts at its terminal PC. -/
def State.HaltsAfter (s : State) (n : Nat) : Prop :=
  ∃ t, run (n + 1) s = .next t ∧ t.status = .halted ∧ t.pc = s.terminalPc ∧
    ∀ k, k ≤ n → ∃ u, run k s = .next u ∧ u.status = .running ∧ u.pc.toNat = s.pc.toNat + 4 * k

/-- From `s` the run faults in one of its first `n` cycles. -/
def State.FaultsWithin (s : State) (n : Nat) : Prop :=
  ∃ k u a t, k < n ∧ run k s = .next u ∧ step u = .fault (.regionOverrun a t) ∧ t.status = .faulted a ∧
    t.pc.toNat = s.pc.toNat + 4 * k

/-- At its terminal PC a running block halts after no cycle. -/
theorem State.haltsAfter_zero {s : State} (hr : s.status = .running) (hp : s.pc = s.terminalPc) : s.HaltsAfter 0 := by
  refine ⟨s.halt, run_succ_of_next 0 (step_at_terminalPc hr hp), rfl, hp, fun k hk => ?_⟩
  obtain rfl : k = 0 := Nat.le_zero.mp hk
  exact ⟨s, rfl, hr, rfl⟩

section Advance
variable {s t : State} {n : Nat} (h : step s = .next t) (hpc : t.pc.toNat = s.pc.toNat + 4)
include h hpc

/-- One completed cycle before a run that halts. -/
theorem State.haltsAfter_succ (hr : s.status = .running) (hterm : t.terminalPc = s.terminalPc) (ht : t.HaltsAfter n) :
    s.HaltsAfter (n + 1) := by
  obtain ⟨v, hrun, hv, hvpc, hall⟩ := ht
  refine ⟨v, (run_succ_of_next (n + 1) h).trans hrun, hv, hvpc.trans hterm, fun k hk => ?_⟩
  cases k with
  | zero => exact ⟨s, rfl, hr, rfl⟩
  | succ k =>
    obtain ⟨u, hu, hur, hupc⟩ := hall k (Nat.le_of_succ_le_succ hk)
    exact ⟨u, (run_succ_of_next k h).trans hu, hur, by omega⟩

/-- One completed cycle before a run that faults. -/
theorem State.faultsWithin_succ (ht : t.FaultsWithin n) : s.FaultsWithin (n + 1) := by
  obtain ⟨k, u, a, v, hk, hu, hf, hv, hvpc⟩ := ht
  exact ⟨k + 1, u, a, v, by omega, (run_succ_of_next k h).trans hu, hf, hv, by omega⟩

end Advance

/-- A step that faults makes the run fault in its first cycle. -/
theorem State.faultsWithin_of_step_fault {s : State} {f : Fault} (hs : s.Inv) (h : step s = .fault f) (n : Nat) :
    s.FaultsWithin (n + 1) := by
  obtain ⟨w, i, a, -, -, -, -, rfl⟩ := step_fault_of_aligned hs.pcAligned h
  exact ⟨0, s, a, _, n.succ_pos, rfl, h, rfl, rfl⟩

/-- A running block away from its terminal PC completes a cycle, 4 further on, or faults. -/
theorem State.Inv.step_cases {s : State} (hs : s.Inv) (hr : s.status = .running) (hp : s.pc ≠ s.terminalPc) :
    (∃ t, step s = .next t ∧ t.Inv ∧ t.status = .running ∧ t.terminalPc = s.terminalPc ∧
      t.pc.toNat = s.pc.toNat + 4) ∨ ∃ f, step s = .fault f := by
  obtain ⟨w, hw⟩ := fetch_of_aligned hs.pcAligned
  cases hstep : step s with
  | next t =>
    obtain ⟨hpc, hterm, hstatus, -⟩ := step_next_control ⟨hr, hp, hw⟩ hstep
    exact .inl ⟨t, rfl, everyStepKeepsTheInvariant s t hs hstep, hstatus.trans hr, hterm,
      (congrArg BitVec.toNat hpc).trans (hs.toNat_pc_add_four hr hp)⟩
  | fault f => exact .inr ⟨f, rfl⟩
  | refused r => exact absurd hstep (noStepIsRefused s r)

/-- A running block `n` words before its terminal PC halts there after `n` cycles, or faults on the way. -/
theorem State.Inv.run_ends (n : Nat) : ∀ {s : State}, s.Inv → s.status = .running →
    s.terminalPc.toNat = s.pc.toNat + 4 * n → s.HaltsAfter n ∨ s.FaultsWithin n := by
  induction n with
  | zero => exact fun hs hr hd => .inl (haltsAfter_zero hr (BitVec.eq_of_toNat_eq hd.symm))
  | succ n ih =>
    intro s hs hr hd
    have hp : s.pc ≠ s.terminalPc := fun h => by have := congrArg BitVec.toNat h; omega
    obtain ⟨t, h, ht, htr, hterm, hpc⟩ | ⟨f, hf⟩ := hs.step_cases hr hp
    · have hdist : t.terminalPc.toNat = t.pc.toNat + 4 * n := by rw [hterm]; omega
      exact (ih ht htr hdist).imp (haltsAfter_succ h hpc hr hterm) (faultsWithin_succ h hpc)
    · exact .inr (faultsWithin_of_step_fault hs hf n)

/-- What a launch that was not refused left: a running block at 256 that meets the invariant, as many words before its
terminal PC as the program has. -/
theorem launch_reset_next {l : LaunchInputs} {ps : List Word} {s : State} (hps : l.program = some ps)
    (h : launch l State.reset = .next s) :
    s.Inv ∧ s.status = .running ∧ s.pc = 256#32 ∧ s.terminalPc = l.terminalPc ∧
      s.terminalPc.toNat = 256 + 4 * ps.length := by
  by_cases hp : terminalPcAgrees l.terminalPc ps.length = true
  · obtain ⟨ht, hmax⟩ := (terminalPcAgrees_iff _ _).mp hp
    obtain ⟨m, hl, hm, -, -⟩ := loadProgram_nil_spec ps (ht ▸ hmax)
    cases h.symm.trans (launch_reset_of_agrees hps hp hl)
    exact ⟨startState_inv hm ht, rfl, rfl, rfl, ht⟩
  · cases h.symm.trans (launch_reset_of_mismatch hps hp)

/-- Settles O44: the launched block stands N words before its terminal PC, so its run ends. -/
theorem everyLaunchedRunEnds : Obligations.EveryLaunchedRunEnds := by
  intro l ps s hps h
  obtain ⟨hs, hr, hpc, hterm, hdist⟩ := launch_reset_next hps h
  have hstart : s.pc.toNat = 256 := congrArg BitVec.toNat hpc
  have hends := hs.run_ends ps.length hr (by omega)
  simpa only [State.HaltsAfter, State.FaultsWithin, hstart, hterm] using hends

end Sys2Proof.Machine
end
